-- ==== Sys2Proof/Word.lean ====
section
/-! DEFINITION. The word types of RANDOMREF-CORE (00_scope.md R10, R11): unsigned, fixed width, wrapping. -/

namespace Sys2Proof

/-- A command word, or the eight GVALID flags. -/
abbrev W8 := BitVec 8

/-- `u32` of R11. -/
abbrev W32 := BitVec 32

/-- `u64` of R11: the width of every operand and result port (R32). -/
abbrev W64 := BitVec 64

end Sys2Proof
end

