-- ==== Sys2Proof/Config.lean ====
section
/-! DEFINITION. What an implementation fixes: the parameters of 00_scope.md R9 with the spec's defaults, and the free
values the spec leaves open (60_exceptions.md R204, 10_state.md R34). Which configuration the machine runs is
`Machine.config` (Machine/Ops.lean). -/

namespace Sys2Proof

/-- The parameters RR leaves open (R9). A double is given by its binary64 pattern.
PRESUMED, unsafe (log 5): the defaults marked GK in R9 are general knowledge, not the source's. -/
structure Config where
  /-- xorshift128: left shift of the oldest word -/
  xs128A : Nat := 11
  /-- xorshift128: right shift of `t` -/
  xs128B : Nat := 8
  /-- xorshift128: right shift of the newest word -/
  xs128C : Nat := 19
  /-- xorshift128+: left shift -/
  xspA : Nat := 23
  /-- xorshift128+: right shift of the scrambled word -/
  xspB : Nat := 18
  /-- xorshift128+: right shift of the other word -/
  xspC : Nat := 5
  /-- xorshift128+: the output is the sum of the state words before (true) or after (false) the update -/
  xspOutPre : Bool := true
  /-- xoshiro128++: left shift of `s1` -/
  xo128Shift : Nat := 9
  /-- xoshiro128++: rotate of `s3` in the state update -/
  xo128Rot : Nat := 11
  /-- xoshiro256++: left shift of `s1` -/
  xo256Shift : Nat := 17
  /-- xoshiro256++: rotate in the output function -/
  xo256OutRot : Nat := 23
  /-- xoshiro256++: rotate of `s3` in the state update -/
  xo256Rot : Nat := 45
  /-- splitmix64: the three right shifts -/
  sm64S1 : Nat := 30
  sm64S2 : Nat := 27
  sm64S3 : Nat := 31
  /-- mulberry32: the three right shifts -/
  mb32S1 : Nat := 15
  mb32S2 : Nat := 7
  mb32S3 : Nat := 14
  /-- mulberry32: the constants OR-ed into the multiplicands -/
  mb32Or1 : W32 := 1
  mb32Or2 : W32 := 61
  /-- Doornik 32 offset: 0.5 (RR's value) -/
  d32Offset : W64 := 0x3FE0000000000000#64
  /-- Doornik 52 offset: 0.5 + 2^-53 -/
  d52Offset : W64 := 0x3FE0000000000001#64
  /-- Doornik 52 scale of the low 20 bits: 2^-52 (RR's value) -/
  d52Scale2 : W64 := 0x3CB0000000000000#64
  /-- number of independent copies of the block in a system (R36) -/
  nInstances : Nat := 1
deriving DecidableEq, Repr

namespace Config

/-- The default parameters of R9. -/
def default : Config := {}

/-- A shift or rotate amount a rule may use at width `w`: R11, "1 <= k <= W-1". -/
abbrev Amount (w k : Nat) : Prop := 1 ≤ k ∧ k < w

/-- The pattern of a finite double: its biased exponent is not all ones (R14). -/
abbrev FinitePattern (p : W64) : Prop := p.extractLsb' 52 11 ≠ 0x7FF#11

/-- The parameters are legal: every shift and rotate amount is in R11's range, the Doornik doubles are finite. -/
abbrev Legal (c : Config) : Prop :=
  (Amount 32 c.xs128A ∧ Amount 32 c.xs128B ∧ Amount 32 c.xs128C) ∧
  (Amount 64 c.xspA ∧ Amount 64 c.xspB ∧ Amount 64 c.xspC) ∧
  (Amount 32 c.xo128Shift ∧ Amount 32 c.xo128Rot) ∧
  (Amount 64 c.xo256Shift ∧ Amount 64 c.xo256OutRot ∧ Amount 64 c.xo256Rot) ∧
  (Amount 64 c.sm64S1 ∧ Amount 64 c.sm64S2 ∧ Amount 64 c.sm64S3) ∧
  (Amount 32 c.mb32S1 ∧ Amount 32 c.mb32S2 ∧ Amount 32 c.mb32S3) ∧
  (FinitePattern c.d32Offset ∧ FinitePattern c.d52Offset ∧ FinitePattern c.d52Scale2)

/-- FREE VALUE (R204, log 3): what the result port carries on the `n`-th failing completion. Nothing constrains it. -/
opaque freeResult (n : Nat) : W64

/-- FREE VALUE (R34, log 4): what generator state register number `reg` (0 to 17, in the order of R21) holds after the
reset that drew free value `n`. Nothing constrains it; a 32-bit register takes the low 32 bits. -/
opaque resetWord (n reg : Nat) : W64

end Config
end Sys2Proof
end

