-- ==== Sys2Proof/Syntax.lean ====
section
/-! DEFINITION. The commands of RANDOMREF-CORE (30_encoding.md): one constructor of `Instr` for each row of
spec/opcode_table.json. Operands are not part of a command word (R70): they come from the ports. -/

namespace Sys2Proof

/-- The eight banks, in the order of their codes (R73, 10_state.md R21). -/
inductive Bank
  | xs32 | xs64 | xs128 | xsp | xo128 | xo256 | sm64 | mb32
deriving DecidableEq, Repr

/-- The four banks with a 32-bit output, the legal contents of `SRC` (10_state.md R28). -/
inductive Source
  | xs32 | xs128 | xo128 | mb32
deriving DecidableEq, Repr

/-- The threshold procedures, field `v` of `SCFG` and register `VAR` (R75). -/
inductive Variant
  | modulo | oneill
deriving DecidableEq, Repr

/-- The 23 commands (R78). -/
inductive Instr
  | seedXs32 | seedXs64 | seedXs128 | seedXsp | seedXo128 | seedXo256 | seedSm64 | seedMb32
  | nextXs32 | nextXs64 | nextXs128 | nextXsp | nextXo128 | nextXo256 | nextSm64 | nextMb32
  | scfg (src : Bank) (var : Variant)
  | nextb
  | cvtMul | cvtBitcast | cvtD32 | cvtD52
  | stat
deriving DecidableEq, Repr

/-- The pseudo-instructions of R82, expanded by the host before issue. -/
inductive Pseudo
  | next2 (src : Source)
  | scfgMod (src : Source) (range : W64)
  | scfgOneill (src : Source) (range : W64)
deriving DecidableEq, Repr

end Sys2Proof
end

