-- ==== Sys2Proof/Machine/State.lean ====
section
/-! DEFINITION. The state of one instance of the block (10_state.md): the architectural state of R20, the command
interface of R32, and the fields a stepwise model needs. -/

namespace Sys2Proof.Machine

/-- xorshift128's registers (R21). -/
structure Xs128 where
  x : W32
  y : W32
  z : W32
  w : W32
deriving DecidableEq, Repr

/-- xorshift128+'s registers (R21). -/
structure Xsp where
  s0 : W64
  s1 : W64
deriving DecidableEq, Repr

/-- xoshiro128++'s registers (R21). -/
structure Xo128 where
  s0 : W32
  s1 : W32
  s2 : W32
  s3 : W32
deriving DecidableEq, Repr

/-- xoshiro256++'s registers (R21). -/
structure Xo256 where
  s0 : W64
  s1 : W64
  s2 : W64
  s3 : W64
deriving DecidableEq, Repr

/-- The whole architectural state (R20): eight generator banks, their valid flags, the sampler's registers. -/
structure Arch where
  /-- `XS32.X` -/
  xs32 : W32
  /-- `XS64.X` -/
  xs64 : W64
  xs128 : Xs128
  xsp : Xsp
  xo128 : Xo128
  xo256 : Xo256
  /-- `SM64.X` -/
  sm64 : W64
  /-- `MB32.X`, 32 bits (R35) -/
  mb32 : W32
  /-- `GVALID[7:0]` (R25) -/
  gvalid : W8
  /-- `RANGE` (R27) -/
  range : W32
  /-- `SRC` (R28) -/
  src : Source
  /-- `VAR` (R29) -/
  var : Variant
  /-- `SVALID` (R30) -/
  svalid : Bool
deriving DecidableEq, Repr

/-- The four operand ports as sampled when the current command was accepted (R32). -/
structure Ports where
  a : W64
  b : W64
  c : W64
  d : W64
deriving DecidableEq, Repr

/-- What the host drives: one transaction, the reset request, or nothing for one step (R32, 70_reset_and_hazards.md R230).
DESIGN CHOICE, safe (log 1): the host's stream is a list of these in `State`. -/
inductive HostEvent
  /-- the host presents nothing: the block idles, or goes on with a running `NEXTB` -/
  | wait
  /-- `rst` is asserted -/
  | rst
  /-- a command word with its operands is presented, until the block accepts it -/
  | command (cmd : W8) (ports : Ports)
deriving DecidableEq, Repr

/-- The completion statuses (60_exceptions.md R201). -/
inductive Status
  | ok | illegalCmd | zeroSeed | zeroRange | notSeeded | noSampler
deriving DecidableEq, Repr

/-- What the block presents when a command completes (R32). -/
structure Completion where
  st : Status
  r : W64
deriving DecidableEq, Repr

/-- Whether a command is in progress. Only `NEXTB` can be, between two draws of its loop (44_bounded_sampler.md R166);
what it carries from draw to draw is the threshold `t`. DESIGN CHOICE, safe (log 2). -/
inductive Phase
  | idle
  | rejecting (t : W32)
deriving DecidableEq, Repr

/-- One instance of the block. -/
structure State where
  /-- the architectural state (R20) -/
  arch : Arch
  /-- the sampled operand ports (R32) -/
  ports : Ports
  /-- idle, or inside `NEXTB`'s loop -/
  phase : Phase
  /-- the completion this step presented, if it presented one (R32: `st` and `r` are meaningful only then) -/
  completion : Option Completion
  /-- what the host is going to drive, first item first -/
  host : List HostEvent
  /-- the model's own counter: the index of the next free value (log 6) -/
  freeCount : Nat
deriving DecidableEq, Repr

/-- The block has no trap and never stops: "Every command completes, and every completion carries a 3-bit status"
(60_exceptions.md R200). No fault exists, so the type has no constructor; safe (log 17). -/
inductive Fault
deriving DecidableEq, Repr

/-- Why the model, not the block, stops. -/
inductive Refusal
  /-- raised by an arm of `exec` for an instruction that has no meaning yet; safe. No arm raises it now. -/
  | notModelled (mnemonic : String)
deriving DecidableEq, Repr

/-- The architectural state after the reset that draws free value `n` (R34, 70_reset_and_hazards.md R230): flags and
sampler registers zero, every generator register unspecified ("it must not assume zero"): a free value (log 4). -/
def Arch.reset (n : Nat) : Arch where
  xs32 := (Config.resetWord n 0).setWidth 32
  xs64 := Config.resetWord n 1
  xs128 :=
    { x := (Config.resetWord n 2).setWidth 32, y := (Config.resetWord n 3).setWidth 32,
      z := (Config.resetWord n 4).setWidth 32, w := (Config.resetWord n 5).setWidth 32 }
  xsp := { s0 := Config.resetWord n 6, s1 := Config.resetWord n 7 }
  xo128 :=
    { s0 := (Config.resetWord n 8).setWidth 32, s1 := (Config.resetWord n 9).setWidth 32,
      s2 := (Config.resetWord n 10).setWidth 32, s3 := (Config.resetWord n 11).setWidth 32 }
  xo256 :=
    { s0 := Config.resetWord n 12, s1 := Config.resetWord n 13,
      s2 := Config.resetWord n 14, s3 := Config.resetWord n 15 }
  sm64 := Config.resetWord n 16
  mb32 := (Config.resetWord n 17).setWidth 32
  gvalid := 0
  range := 0
  src := .xs32
  var := .modulo
  svalid := false

/-- The block right after its first reset (R230, R231): idle, nothing presented, no command from the host yet. -/
def State.reset : State where
  arch := Arch.reset 0
  ports := { a := 0, b := 0, c := 0, d := 0 }
  phase := .idle
  completion := none
  host := []
  freeCount := 1

end Sys2Proof.Machine
end

