-- ==== Sys2Proof/Machine/Operands.lean ====
section
/-! DEFINITION. Operand forms and bit fields (00_scope.md R10 to R13, 30_encoding.md R76, R77). -/

namespace Sys2Proof.Machine

/-- `v[31:0]` of a port: a narrow operand; bits 63:32 are ignored (R54, R76). -/
def low32 (v : W64) : W32 := v.setWidth 32

/-- `v[63:32]`. -/
def high32 (v : W64) : W32 := v.extractLsb' 32 32

/-- `zext_64` of a 32-bit result (R13, R77). -/
def zext64 (v : W32) : W64 := v.setWidth 64

/-- `s32`: two's complement reading of a 32-bit pattern (R12). -/
def s32 (v : W32) : Int := if v.toNat < 2 ^ 31 then (v.toNat : Int) else (v.toNat : Int) - 2 ^ 32

/-- `v[19:0]` as a non-negative integer (`iRan2`'s low 20 bits, 40_conversions.md R105). -/
def low20 (v : W64) : Nat := (v.extractLsb' 0 20).toNat

/-- `rotl(x, k)` (R11): "(x << k) | (x >> (width - k))". -/
def rotl {w : Nat} (x : BitVec w) (k : Nat) : BitVec w := (x <<< k) ||| (x >>> (w - k))

/-- `x ^ (x << k)`. -/
def xorShl {w : Nat} (x : BitVec w) (k : Nat) : BitVec w := x ^^^ (x <<< k)

/-- `x ^ (x >> k)`, the shift logical. -/
def xorShr {w : Nat} (x : BitVec w) (k : Nat) : BitVec w := x ^^^ (x >>> k)

/-- The 3-bit code of a status on port `st` (60_exceptions.md R201). -/
def Status.code : Status → BitVec 3
  | .ok => 0
  | .illegalCmd => 1
  | .zeroSeed => 2
  | .zeroRange => 3
  | .notSeeded => 4
  | .noSampler => 5

end Sys2Proof.Machine
end

