-- ==== Sys2Proof/Machine/Float.lean ====
section
/-! DEFINITION. IEEE-754 binary64 as 00_scope.md R14 names it: `f64_bits`, `f64_from_bits`, `int_to_f64`, `*f`, `+f`, `-f`
with roundTiesToEven, on 64-bit patterns; and `exact_f64` (40_conversions.md R101). A finite value is a sign, a natural
significand and an integer exponent; each operation is computed exactly and rounded once. -/

namespace Sys2Proof.Machine

/-- A binary64 value. `fin neg m e` is `±m * 2^e`; `m = 0` is a zero with its sign. -/
inductive F64
  | nan
  | inf (neg : Bool)
  | fin (neg : Bool) (m : Nat) (e : Int)
deriving DecidableEq, Repr

/-- `m / 2^k`, rounded to nearest, ties to even. -/
def shiftRoundEven (m k : Nat) : Nat :=
  let q := m / 2 ^ k
  let rest := m % 2 ^ k
  if 2 ^ k < 2 * rest ∨ (2 * rest = 2 ^ k ∧ q % 2 = 1) then q + 1 else q

/-- The exponent of the last place kept for `m * 2^e`: 53 significant bits, never below `2^-1074`. -/
def quantum (m : Nat) (e : Int) : Int := max ((Nat.log2 m : Int) + e - 52) (-1074)

/-- `m * 2^e` as a multiple of `2^(quantum m e)`, rounded. -/
def significand (m : Nat) (e : Int) : Nat :=
  let q := quantum m e
  if q ≤ e then m * 2 ^ (e - q).toNat else shiftRoundEven m (q - e).toNat

/-- The 63 bits below the sign of a rounded magnitude `m * 2^e`. A significand that reached `2^53` carries into the
exponent; what is too large becomes infinity. -/
def magnitudeBits (m : Nat) (e : Int) : Nat :=
  if m = 0 then 0
  else min ((quantum m e + 1074).toNat * 2 ^ 52 + significand m e) (0x7FF * 2 ^ 52)

/-- The pattern with this sign and these 63 bits. -/
def signedPattern (neg : Bool) (bits : Nat) : W64 :=
  BitVec.ofNat 64 ((if neg then 2 ^ 63 else 0) + bits)

/-- Round `±m * 2^e` to binary64 (roundTiesToEven) and give its pattern. -/
def roundPattern (neg : Bool) (m : Nat) (e : Int) : W64 := signedPattern neg (magnitudeBits m e)

/-- A NaN result. PRESUMED (log 11): the spec states no NaN pattern, and no legal configuration reaches one. -/
def nanPattern : W64 := 0x7FF8000000000000#64

/-- `f64_from_bits` (R14): sign bit 63, biased exponent 62:52 (bias 1023), fraction 51:0. -/
def f64FromBits (p : W64) : F64 :=
  let neg := p.getLsbD 63
  let expo := (p.extractLsb' 52 11).toNat
  let frac := (p.extractLsb' 0 52).toNat
  if expo = 0x7FF then (if frac = 0 then .inf neg else .nan)
  else if expo = 0 then .fin neg frac (-1074)
  else .fin neg (2 ^ 52 + frac) ((expo : Int) - 1075)

/-- `f64_bits` of a value (R14), rounding it if it is not representable. -/
def f64Bits : F64 → W64
  | .nan => nanPattern
  | .inf neg => signedPattern neg (0x7FF * 2 ^ 52)
  | .fin neg m e => roundPattern neg m e

/-- `int_to_f64` (R102, R104, R105). -/
def intToF64 (i : Int) : W64 := roundPattern (i < 0) i.natAbs 0

/-- The exact product of two values. -/
def mulValue : F64 → F64 → F64
  | .nan, _ => .nan
  | .inf _, .nan => .nan
  | .fin _ _ _, .nan => .nan
  | .inf n₁, .inf n₂ => .inf (n₁ != n₂)
  | .inf n₁, .fin n₂ m _ => if m = 0 then .nan else .inf (n₁ != n₂)
  | .fin n₁ m _, .inf n₂ => if m = 0 then .nan else .inf (n₁ != n₂)
  | .fin n₁ m₁ e₁, .fin n₂ m₂ e₂ => .fin (n₁ != n₂) (m₁ * m₂) (e₁ + e₂)

/-- `±m * 2^e` as an integer multiple of `2^low`, for `low ≤ e`. -/
def scaled (neg : Bool) (m : Nat) (e low : Int) : Int :=
  if neg then -((m * 2 ^ (e - low).toNat : Nat) : Int) else ((m * 2 ^ (e - low).toNat : Nat) : Int)

/-- The exact sum of two values. A zero sum is +0 unless both terms are negative (roundTiesToEven). -/
def addValue : F64 → F64 → F64
  | .nan, _ => .nan
  | .inf _, .nan => .nan
  | .fin _ _ _, .nan => .nan
  | .inf n₁, .inf n₂ => if n₁ = n₂ then .inf n₁ else .nan
  | .inf n, .fin _ _ _ => .inf n
  | .fin _ _ _, .inf n => .inf n
  | .fin n₁ m₁ e₁, .fin n₂ m₂ e₂ =>
    let low := min e₁ e₂
    let sum := scaled n₁ m₁ e₁ low + scaled n₂ m₂ e₂ low
    if sum = 0 then .fin (n₁ && n₂) 0 low else .fin (sum < 0) sum.natAbs low

/-- The value with its sign turned. -/
def negValue : F64 → F64
  | .nan => .nan
  | .inf neg => .inf (!neg)
  | .fin neg m e => .fin (!neg) m e

/-- `*f` (R14). -/
def f64Mul (p q : W64) : W64 := f64Bits (mulValue (f64FromBits p) (f64FromBits q))

/-- `+f` (R14). -/
def f64Add (p q : W64) : W64 := f64Bits (addValue (f64FromBits p) (f64FromBits q))

/-- `-f` (R14). -/
def f64Sub (p q : W64) : W64 := f64Bits (addValue (f64FromBits p) (negValue (f64FromBits q)))

/-- `exact_f64(n, e)` (R101): the pattern of `n * 2^-e` by integer work alone, for `n < 2^53` and `e <= 64`. -/
def exactF64 (n e : Nat) : W64 :=
  if n = 0 then 0
  else
    let p := Nat.log2 n
    let expo := 1023 + p - e
    let mant := (n * 2 ^ (52 - p)) % 2 ^ 52
    BitVec.ofNat 64 (expo * 2 ^ 52 + mant)

/-- The double `1.0`. -/
def f64One : W64 := 0x3FF0000000000000#64

/-- The double `2^-53` (R102). -/
def f64TwoPowNeg53 : W64 := 0x3CA0000000000000#64

/-- The double `2^-32`, which RR's literal `2.32830643653869628906e-10` converts to (R8, R104). -/
def f64TwoPowNeg32 : W64 := 0x3DF0000000000000#64

end Sys2Proof.Machine
end

