-- ==== Sys2Proof/WellFormed.lean ====
section
/-! DEFINITION. Which terms of `Instr` are commands of the block: the one field that not every value is legal for is the
source of `SCFG` (30_encoding.md R73, column "Legal under SCFG"). -/

namespace Sys2Proof

/-- The 32-bit-output bank a bank code stands for, if it is one (R73). -/
def Bank.source? : Bank → Option Source
  | .xs32 => some .xs32
  | .xs128 => some .xs128
  | .xo128 => some .xo128
  | .mb32 => some .mb32
  | .xs64 | .xsp | .xo256 | .sm64 => none

/-- A term of `Instr` that some command word encodes: under `SCFG` the source has a 32-bit output. -/
def Instr.wellFormed : Instr → Bool
  | .scfg src _ => src.source?.isSome
  | .seedXs32 | .seedXs64 | .seedXs128 | .seedXsp | .seedXo128 | .seedXo256 | .seedSm64 | .seedMb32
  | .nextXs32 | .nextXs64 | .nextXs128 | .nextXsp | .nextXo128 | .nextXo256 | .nextSm64 | .nextMb32
  | .nextb | .cvtMul | .cvtBitcast | .cvtD32 | .cvtD52 | .stat => true

end Sys2Proof
end

