-- ==== Sys2Proof/Decode.lean ====
section
/-! DEFINITION. From a command word to a command and back (30_encoding.md R70, R71, R73 to R75, R78, R80). Decoding is
total on the 256 words and rejects an illegal word by its cause. -/

namespace Sys2Proof

/-- The causes of an illegal word, in the order (a) to (e) of R78. -/
inductive IllegalWord
  /-- (a) `op = 0x0` or `op >= 0x7` -/
  | opcode
  /-- (b) `v = 1` under an opcode that has no variant -/
  | variantBit
  /-- (c) `SCFG` from a bank with a 64-bit output -/
  | sourceBank
  /-- (d) `NEXTB` or `STAT` with `sel != 0` -/
  | selNotZero
  /-- (e) `CVT` with `sel >= 4` -/
  | functionCode
deriving DecidableEq, Repr

/-- Field `op`, bits 3:0 (R70). -/
def opField (w : W8) : BitVec 4 := w.extractLsb' 0 4

/-- Field `sel`, bits 6:4 (R70). -/
def selField (w : W8) : BitVec 3 := w.extractLsb' 4 3

/-- Field `v`, bit 7 (R70). -/
def vField (w : W8) : Bool := w.getLsbD 7

/-- The bank of a 3-bit code (R73). -/
def bankOfCode (c : BitVec 3) : Bank :=
  match c.toNat with
  | 0 => .xs32
  | 1 => .xs64
  | 2 => .xs128
  | 3 => .xsp
  | 4 => .xo128
  | 5 => .xo256
  | 6 => .sm64
  | _ => .mb32

/-- The variant of a field `v` (R75). -/
def variantOfBit (v : Bool) : Variant := if v then .oneill else .modulo

/-- `SEED.<bank>` (R71). -/
def seedInstr : Bank → Instr
  | .xs32 => .seedXs32
  | .xs64 => .seedXs64
  | .xs128 => .seedXs128
  | .xsp => .seedXsp
  | .xo128 => .seedXo128
  | .xo256 => .seedXo256
  | .sm64 => .seedSm64
  | .mb32 => .seedMb32

/-- `NEXT.<bank>` (R71). -/
def nextInstr : Bank → Instr
  | .xs32 => .nextXs32
  | .xs64 => .nextXs64
  | .xs128 => .nextXs128
  | .xsp => .nextXsp
  | .xo128 => .nextXo128
  | .xo256 => .nextXo256
  | .sm64 => .nextSm64
  | .mb32 => .nextMb32

/-- `CVT.<fn>` of a function code (R74). -/
def cvtInstr (sel : BitVec 3) : Except IllegalWord Instr :=
  match sel.toNat with
  | 0 => .ok .cvtMul
  | 1 => .ok .cvtBitcast
  | 2 => .ok .cvtD32
  | 3 => .ok .cvtD52
  | _ => .error .functionCode

/-- The decode procedure of R80. -/
def decode (w : W8) : Except IllegalWord Instr :=
  match (opField w).toNat with
  | 1 => if vField w then .error .variantBit else .ok (seedInstr (bankOfCode (selField w)))
  | 2 => if vField w then .error .variantBit else .ok (nextInstr (bankOfCode (selField w)))
  | 3 =>
    match (bankOfCode (selField w)).source? with
    | some _ => .ok (.scfg (bankOfCode (selField w)) (variantOfBit (vField w)))
    | none => .error .sourceBank
  | 4 =>
    if vField w then .error .variantBit
    else if selField w = 0 then .ok .nextb else .error .selNotZero
  | 5 => if vField w then .error .variantBit else cvtInstr (selField w)
  | 6 =>
    if vField w then .error .variantBit
    else if selField w = 0 then .ok .stat else .error .selNotZero
  | _ => .error .opcode

/-- The 3-bit code of a bank (R73). -/
def bankCode : Bank → BitVec 3
  | .xs32 => 0
  | .xs64 => 1
  | .xs128 => 2
  | .xsp => 3
  | .xo128 => 4
  | .xo256 => 5
  | .sm64 => 6
  | .mb32 => 7

/-- The field `v` of a variant (R75). -/
def variantBit : Variant → BitVec 1
  | .modulo => 0
  | .oneill => 1

/-- A command word from its three fields (R70). -/
def commandWord (v : BitVec 1) (sel : BitVec 3) (op : BitVec 4) : W8 := v ++ sel ++ op

/-- The word of a command, from the tables of R71, R73 and R74. -/
def encode : Instr → W8
  | .seedXs32 => commandWord 0 (bankCode .xs32) 0x1
  | .seedXs64 => commandWord 0 (bankCode .xs64) 0x1
  | .seedXs128 => commandWord 0 (bankCode .xs128) 0x1
  | .seedXsp => commandWord 0 (bankCode .xsp) 0x1
  | .seedXo128 => commandWord 0 (bankCode .xo128) 0x1
  | .seedXo256 => commandWord 0 (bankCode .xo256) 0x1
  | .seedSm64 => commandWord 0 (bankCode .sm64) 0x1
  | .seedMb32 => commandWord 0 (bankCode .mb32) 0x1
  | .nextXs32 => commandWord 0 (bankCode .xs32) 0x2
  | .nextXs64 => commandWord 0 (bankCode .xs64) 0x2
  | .nextXs128 => commandWord 0 (bankCode .xs128) 0x2
  | .nextXsp => commandWord 0 (bankCode .xsp) 0x2
  | .nextXo128 => commandWord 0 (bankCode .xo128) 0x2
  | .nextXo256 => commandWord 0 (bankCode .xo256) 0x2
  | .nextSm64 => commandWord 0 (bankCode .sm64) 0x2
  | .nextMb32 => commandWord 0 (bankCode .mb32) 0x2
  | .scfg src var => commandWord (variantBit var) (bankCode src) 0x3
  | .nextb => commandWord 0 0 0x4
  | .cvtMul => commandWord 0 0 0x5
  | .cvtBitcast => commandWord 0 1 0x5
  | .cvtD32 => commandWord 0 2 0x5
  | .cvtD52 => commandWord 0 3 0x5
  | .stat => commandWord 0 0 0x6

/-- The command word among the low `nbits` bits of `w`: a command is one byte, the bits above it are none of it (R70). -/
def tableWord (nbits w : Nat) : W8 := BitVec.ofNat 8 (w % 2 ^ nbits)

/-- What the decoder reads from an instruction whose bits are `w`, numbered as spec/opcode_table.json numbers them. -/
def decodeTableWord (nbits w : Nat) : Option Instr :=
  match decode (tableWord nbits w) with
  | .ok i => some i
  | .error _ => none

end Sys2Proof
end

