-- ==== Sys2Proof/Machine/Flags.lean ====
section
/-! DEFINITION. The flags: `GVALID`, `SVALID` and how `STAT` lays them out (10_state.md R25, R30, 45_status.md R180). No
command writes a flag as a side effect of arithmetic (R25). -/

namespace Sys2Proof

/-- The bank the sampler draws from, for a legal content of `SRC` (10_state.md R28). -/
def Source.bank : Source → Bank
  | .xs32 => .xs32
  | .xs128 => .xs128
  | .xo128 => .xo128
  | .mb32 => .mb32

namespace Machine

/-- `GVALID[i]` for the bank with code `i` (R25). -/
def Arch.isSeeded (r : Arch) (b : Bank) : Bool := r.gvalid.getLsbD (bankCode b).toNat

/-- `GVALID[i] <- 1` (R25, 41_xorshift.md R120). -/
def Arch.markSeeded (b : Bank) (r : Arch) : Arch :=
  { r with gvalid := r.gvalid ||| (1#8 <<< (bankCode b).toNat) }

/-- What `STAT` returns (R180): `r[7:0]` GVALID, `r[8]` SVALID, `r[11:9]` SRC, `r[12]` VAR, `r[31:13]` zero,
`r[63:32]` RANGE. -/
def statusWord (r : Arch) : W64 :=
  r.range ++ 0#19 ++ variantBit r.var ++ bankCode r.src.bank ++ BitVec.ofBool r.svalid ++ r.gvalid

end Machine
end Sys2Proof
end

