-- ==== Sys2Proof/Machine/Ops.lean ====
section
/-! DEFINITION. The operations every meaning is built from: completing a command, failing one (the block's only form of
exception, 00_scope.md R15 `fail`), the common parts of SEED and NEXT (41_xorshift.md R120, R121), reset, and what the
block takes from the host next. -/

namespace Sys2Proof.Machine

/-- The parameters the machine runs with: the defaults of 00_scope.md R9. PRESUMED, unsafe (log 5). -/
def config : Config := Config.default

/-- What a meaning answers. -/
abbrev Out := Host.Outcome State Fault Refusal

/-- The state after a command that completed with `st = OK` and result `r`, leaving `arch` (R32, 30_encoding.md R77). -/
def State.completed (arch : Arch) (r : W64) (s : State) : State :=
  { s with arch := arch, phase := .idle, completion := some { st := .ok, r := r } }

/-- The state after a command that failed with `st` (60_exceptions.md R203, R204): no architectural state has changed,
the result port carries a free value (log 3). -/
def State.failed (st : Status) (s : State) : State :=
  { s with
    phase := .idle
    completion := some { st := st, r := Config.freeResult s.freeCount }
    freeCount := s.freeCount + 1 }

/-- The state after a rejected draw of `NEXTB`: the draw is committed, nothing completes (44_bounded_sampler.md R165,
R166). -/
def State.rejected (t : W32) (arch : Arch) (s : State) : State :=
  { s with arch := arch, phase := .rejecting t, completion := none }

/-- The state after a step in which the block had nothing to do. -/
def State.idled (s : State) : State := { s with completion := none }

/-- The state after `rst` (70_reset_and_hazards.md R230, R232): a command in progress is abandoned without a
completion. -/
def State.resetNow (s : State) : State :=
  { arch := Arch.reset s.freeCount
    ports := { a := 0, b := 0, c := 0, d := 0 }
    phase := .idle
    completion := none
    host := s.host
    freeCount := s.freeCount + 1 }

/-- Complete a command with `st = OK`. -/
def complete (arch : Arch) (r : W64) (s : State) : Out := .next (s.completed arch r)

/-- `fail <Status>` (R15): TAKING THE BLOCK'S ONLY FORM OF EXCEPTION. It saves nothing and changes no mode (R200, R207);
there is no return from it (R208). -/
def fail (st : Status) (s : State) : Out := .next (s.failed st)

/-- Common part of `SEED.<bank>` (R120): `zero` says that every seed word is 0, `written` is the architectural state with
the seed words stored. -/
def seedBank (b : Bank) (zero : Bool) (written : Arch) (s : State) : Out :=
  if zero then fail .zeroSeed s else complete (written.markSeeded b) 0 s

/-- Common part of `NEXT.<bank>` (R121): `stepped` is the architectural state after the bank's transition, `out` its
output on the 64-bit port. -/
def nextBank (b : Bank) (stepped : Arch) (out : W64) (s : State) : Out :=
  if s.arch.isSeeded b then complete stepped out s else fail .notSeeded s

/-- What the block does in one step, chosen by what the host drives and by the phase. -/
inductive Work
  /-- take the reset request; the state is the one before it, the request consumed -/
  | reset (s : State)
  /-- perform this command word on this state, its operands sampled -/
  | accept (cmd : W8) (s : State)
  /-- make the next draw of the running `NEXTB` with threshold `t` -/
  | redraw (t : W32) (s : State)
  /-- nothing to do -/
  | idle (s : State)
deriving DecidableEq, Repr

/-- With no command and no reset to take: go on with a running `NEXTB`, or idle. -/
def ongoing (s : State) : Work :=
  match s.phase with
  | .idle => .idle s
  | .rejecting t => .redraw t s

/-- What the block takes next. Reset comes first, also inside a command (R232, log 8). A command presented while the block
is busy "simply has not been issued yet" (R236, log 15): it stays in the stream. Operands are sampled once, when the
command is accepted (R32). -/
def nextWork (s : State) : Work :=
  match s.host with
  | [] => ongoing s
  | .wait :: rest => ongoing { s with host := rest }
  | .rst :: rest => .reset { s with host := rest }
  | .command cmd ports :: rest =>
    match s.phase with
    | .idle => .accept cmd { s with host := rest, ports := ports }
    | .rejecting t => .redraw t s

end Sys2Proof.Machine
end

