-- ==== Sys2Proof/Machine/Convert.lean ====
section
/-! DEFINITION. The integer-to-double conversions (40_conversions.md), by RR's floating-point formulas, which govern at
every value of the parameters (R104 corner case 6); the exact_f64 forms are statements about them. -/

namespace Sys2Proof.Machine

/-- RR's multiplicative conversion (R102). -/
def toDoubleMul (x : W64) : W64 := f64Mul (intToF64 ((x >>> 11).toNat : Int)) f64TwoPowNeg53

/-- RR's bit-cast conversion (R103): the high 52 bits into the mantissa of a double in `[1, 2)`, less 1.0. -/
def toDoubleBitcast (x : W64) : W64 := f64Sub (0x3FF0000000000000#64 ||| (x >>> 12)) f64One

/-- Doornik's randbl32 (R104). -/
def toDoubleD32 (c : Config) (iRan1 : W32) : W64 :=
  f64Add (f64Mul (intToF64 (s32 iRan1)) f64TwoPowNeg32) c.d32Offset

/-- Doornik's 52-bit routine (R105); `lo20` is `iRan2`'s low 20 bits. -/
def toDoubleD52 (c : Config) (iRan1 : W32) (lo20 : Nat) : W64 :=
  f64Add (f64Add (f64Mul (intToF64 (s32 iRan1)) f64TwoPowNeg32) c.d52Offset)
    (f64Mul (intToF64 (lo20 : Int)) c.d52Scale2)

/-- `CVT.MUL` (R102). -/
def execCvtMul (s : State) : Out := complete s.arch (toDoubleMul s.ports.a) s

/-- `CVT.BITCAST` (R103). -/
def execCvtBitcast (s : State) : Out := complete s.arch (toDoubleBitcast s.ports.a) s

/-- `CVT.D32` (R104). -/
def execCvtD32 (s : State) : Out := complete s.arch (toDoubleD32 config (low32 s.ports.a)) s

/-- `CVT.D52` (R105). -/
def execCvtD52 (s : State) : Out :=
  complete s.arch (toDoubleD52 config (low32 s.ports.a) (low20 s.ports.b)) s

end Sys2Proof.Machine
end

