-- ==== Sys2Proof/Machine/Counter.lean ====
section
/-! DEFINITION. The counter-based generators (43_counter_generators.md): SM64, MB32. The state is a counter; the output is
a mix of the new counter value that does not feed back. Sums and products
with a constant are written constant first: with the constant last the kernel, comparing two states, would count it down. Both step through zero once per period, which is legal (R154). -/

namespace Sys2Proof.Machine

/-- splitmix64, the counter (R151). -/
def sm64Step (x : W64) : W64 := 0x9E3779B97F4A7C15#64 + x

/-- splitmix64, the mix of the new counter (R151). -/
def sm64Mix (c : Config) (x : W64) : W64 :=
  let z := 0xBF58476D1CE4E5B9#64 * xorShr x c.sm64S1
  let z := 0x94D049BB133111EB#64 * xorShr z c.sm64S2
  xorShr z c.sm64S3

/-- mulberry32, the counter (R153). -/
def mb32Step (x : W32) : W32 := 0x6D2B79F5#32 + x

/-- mulberry32, the mix of the new counter (R153); every `z` on a line's right is the value from the line before. -/
def mb32Mix (c : Config) (x : W32) : W32 :=
  let z := xorShr x c.mb32S1 * (x ||| c.mb32Or1)
  let z := z ^^^ (z + xorShr z c.mb32S2 * (z ||| c.mb32Or2))
  xorShr z c.mb32S3

/-- The transition of SM64 and its output (R151). -/
def advanceSm64 (r : Arch) : Arch × W64 :=
  ({ r with sm64 := sm64Step r.sm64 }, sm64Mix config (sm64Step r.sm64))

/-- The transition of MB32 and its output (R153). -/
def advanceMb32 (r : Arch) : Arch × W32 :=
  ({ r with mb32 := mb32Step r.mb32 }, mb32Mix config (mb32Step r.mb32))

/-- `SEED.SM64` (R150). -/
def execSeedSm64 (s : State) : Out :=
  seedBank .sm64 (s.ports.a == 0) { s.arch with sm64 := s.ports.a } s

/-- `SEED.MB32` (R152). -/
def execSeedMb32 (s : State) : Out :=
  let x := low32 s.ports.a
  seedBank .mb32 (x == 0) { s.arch with mb32 := x } s

/-- `NEXT.SM64` (R151). -/
def execNextSm64 (s : State) : Out :=
  let d := advanceSm64 s.arch
  nextBank .sm64 d.1 d.2 s

/-- `NEXT.MB32` (R153). -/
def execNextMb32 (s : State) : Out :=
  let d := advanceMb32 s.arch
  nextBank .mb32 d.1 (zext64 d.2) s

end Sys2Proof.Machine
end

