-- ==== Sys2Proof/Machine/Xorshift.lean ====
section
/-! DEFINITION. The xorshift generators (41_xorshift.md): XS32, XS64, XS128, XSP. A transition gives the bank's new
registers; `advance…` is the transition on the architectural state with the output it returns. -/

namespace Sys2Proof.Machine

/-- xorshift32 (R123): shifts 13 left, 17 right, 5 left. -/
def xs32Step (x : W32) : W32 := xorShl (xorShr (xorShl x 13) 17) 5

/-- xorshift64 (R125): shifts 13 left, 7 right, 17 left. -/
def xs64Step (x : W64) : W64 := xorShl (xorShr (xorShl x 13) 7) 17

/-- xorshift128 (R127): the words move down, the new `W` is the output. -/
def xs128Step (c : Config) (g : Xs128) : Xs128 :=
  let t := xorShl g.x c.xs128A
  { x := g.y, y := g.z, z := g.w, w := xorShr g.w c.xs128C ^^^ xorShr t c.xs128B }

/-- xorshift128+, the state update (R129). -/
def xspStep (c : Config) (g : Xsp) : Xsp :=
  let s1 := xorShl g.s0 c.xspA
  { s0 := g.s1, s1 := s1 ^^^ g.s1 ^^^ (s1 >>> c.xspB) ^^^ (g.s1 >>> c.xspC) }

/-- xorshift128+, the output (R129): the sum of the two words before or after the update, by `XSP_OUT_PRE`. -/
def xspOut (c : Config) (g : Xsp) : W64 :=
  if c.xspOutPre then g.s1 + g.s0 else (xspStep c g).s1 + (xspStep c g).s0

/-- The transition of XS32 and its output, the full new state (R123). -/
def advanceXs32 (r : Arch) : Arch × W32 := ({ r with xs32 := xs32Step r.xs32 }, xs32Step r.xs32)

/-- The transition of XS64 and its output (R125). -/
def advanceXs64 (r : Arch) : Arch × W64 := ({ r with xs64 := xs64Step r.xs64 }, xs64Step r.xs64)

/-- The transition of XS128 and its output, the new `W` (R127). -/
def advanceXs128 (r : Arch) : Arch × W32 :=
  ({ r with xs128 := xs128Step config r.xs128 }, (xs128Step config r.xs128).w)

/-- The transition of XSP and its output (R129). -/
def advanceXsp (r : Arch) : Arch × W64 := ({ r with xsp := xspStep config r.xsp }, xspOut config r.xsp)

/-- `SEED.XS32` (R122). -/
def execSeedXs32 (s : State) : Out :=
  let x := low32 s.ports.a
  seedBank .xs32 (x == 0) { s.arch with xs32 := x } s

/-- `SEED.XS64` (R124). -/
def execSeedXs64 (s : State) : Out :=
  seedBank .xs64 (s.ports.a == 0) { s.arch with xs64 := s.ports.a } s

/-- `SEED.XS128` (R126). -/
def execSeedXs128 (s : State) : Out :=
  let g : Xs128 :=
    { x := low32 s.ports.a, y := low32 s.ports.b, z := low32 s.ports.c, w := low32 s.ports.d }
  seedBank .xs128 (g.x == 0 && g.y == 0 && g.z == 0 && g.w == 0) { s.arch with xs128 := g } s

/-- `SEED.XSP` (R128). -/
def execSeedXsp (s : State) : Out :=
  seedBank .xsp (s.ports.a == 0 && s.ports.b == 0) { s.arch with xsp := { s0 := s.ports.a, s1 := s.ports.b } } s

/-- `NEXT.XS32` (R123). -/
def execNextXs32 (s : State) : Out :=
  let d := advanceXs32 s.arch
  nextBank .xs32 d.1 (zext64 d.2) s

/-- `NEXT.XS64` (R125). -/
def execNextXs64 (s : State) : Out :=
  let d := advanceXs64 s.arch
  nextBank .xs64 d.1 d.2 s

/-- `NEXT.XS128` (R127). -/
def execNextXs128 (s : State) : Out :=
  let d := advanceXs128 s.arch
  nextBank .xs128 d.1 (zext64 d.2) s

/-- `NEXT.XSP` (R129). -/
def execNextXsp (s : State) : Out :=
  let d := advanceXsp s.arch
  nextBank .xsp d.1 d.2 s

end Sys2Proof.Machine
end

