-- ==== Sys2Proof/Machine/Xoshiro.lean ====
section
/-! DEFINITION. The xoshiro generators (42_xoshiro.md): XO128, XO256. The update lines stand in the rule's order, each
using the values the lines before it left. -/

namespace Sys2Proof.Machine

/-- xoshiro128++, the output, from the state before the update (R141): "rotl(s0+s3,7)+s0". -/
def xo128Out (g : Xo128) : W32 := rotl (g.s0 + g.s3) 7 + g.s0

/-- xoshiro128++, the state update (R141). -/
def xo128Step (c : Config) (g : Xo128) : Xo128 :=
  let t := g.s1 <<< c.xo128Shift
  let s2 := g.s2 ^^^ g.s0
  let s3 := g.s3 ^^^ g.s1
  let s1 := g.s1 ^^^ s2
  let s0 := g.s0 ^^^ s3
  let s2 := s2 ^^^ t
  let s3 := rotl s3 c.xo128Rot
  { s0 := s0, s1 := s1, s2 := s2, s3 := s3 }

/-- xoshiro256++, the output, from the state before the update (R143). -/
def xo256Out (c : Config) (g : Xo256) : W64 := rotl (g.s0 + g.s3) c.xo256OutRot + g.s0

/-- xoshiro256++, the state update (R143). -/
def xo256Step (c : Config) (g : Xo256) : Xo256 :=
  let t := g.s1 <<< c.xo256Shift
  let s2 := g.s2 ^^^ g.s0
  let s3 := g.s3 ^^^ g.s1
  let s1 := g.s1 ^^^ s2
  let s0 := g.s0 ^^^ s3
  let s2 := s2 ^^^ t
  let s3 := rotl s3 c.xo256Rot
  { s0 := s0, s1 := s1, s2 := s2, s3 := s3 }

/-- The transition of XO128 and its output (R141). -/
def advanceXo128 (r : Arch) : Arch × W32 :=
  ({ r with xo128 := xo128Step config r.xo128 }, xo128Out r.xo128)

/-- The transition of XO256 and its output (R143). -/
def advanceXo256 (r : Arch) : Arch × W64 :=
  ({ r with xo256 := xo256Step config r.xo256 }, xo256Out config r.xo256)

/-- `SEED.XO128` (R140). -/
def execSeedXo128 (s : State) : Out :=
  let g : Xo128 :=
    { s0 := low32 s.ports.a, s1 := low32 s.ports.b, s2 := low32 s.ports.c, s3 := low32 s.ports.d }
  seedBank .xo128 (g.s0 == 0 && g.s1 == 0 && g.s2 == 0 && g.s3 == 0) { s.arch with xo128 := g } s

/-- `SEED.XO256` (R142). -/
def execSeedXo256 (s : State) : Out :=
  let g : Xo256 := { s0 := s.ports.a, s1 := s.ports.b, s2 := s.ports.c, s3 := s.ports.d }
  seedBank .xo256 (g.s0 == 0 && g.s1 == 0 && g.s2 == 0 && g.s3 == 0) { s.arch with xo256 := g } s

/-- `NEXT.XO128` (R141). -/
def execNextXo128 (s : State) : Out :=
  let d := advanceXo128 s.arch
  nextBank .xo128 d.1 (zext64 d.2) s

/-- `NEXT.XO256` (R143). -/
def execNextXo256 (s : State) : Out :=
  let d := advanceXo256 s.arch
  nextBank .xo256 d.1 d.2 s

end Sys2Proof.Machine
end

