-- ==== Sys2Proof/Machine/Sampler.lean ====
section
/-! DEFINITION. The bounded-range rejection sampler (44_bounded_sampler.md): SCFG and NEXTB. NEXTB takes one step of the
model per draw: its loop has no cap and may run for ever (70_reset_and_hazards.md R238; log 2). -/

namespace Sys2Proof.Machine

/-- `SCFG` (R161), with R205's priority. A source without a 32-bit output is no command word: decode has made it
ILLEGAL_CMD (R78), and so does this meaning if it is given such a term (log 10). -/
def execScfg (src : Bank) (var : Variant) (s : State) : Out :=
  match src.source? with
  | none => fail .illegalCmd s
  | some source =>
    if s.arch.isSeeded src then
      if low32 s.ports.a = 0 then fail .zeroRange s
      else complete { s.arch with range := low32 s.ports.a, src := source, var := var, svalid := true } 0 s
    else fail .notSeeded s

/-- `threshold0` (R163): one unsigned remainder of the 32-bit negation. -/
def threshold0 (range : W32) : W32 := (-range) % range

/-- `threshold1` (R164): subtract once, take the remainder only if that was not enough. -/
def threshold1 (range : W32) : W32 :=
  let t := -range
  if range ≤ t then
    let t := t - range
    if range ≤ t then t % range else t
  else t

/-- The threshold by the procedure `VAR` selects (R166, 10_state.md R29). -/
def threshold : Variant → W32 → W32
  | .modulo => threshold0
  | .oneill => threshold1

/-- `draw32(i)` (R165): the transition of bank `SRC`, exactly as its NEXT makes it, and its 32-bit output. -/
def draw32 (src : Source) (r : Arch) : Arch × W32 :=
  match src with
  | .xs32 => advanceXs32 r
  | .xs128 => advanceXs128 r
  | .xo128 => advanceXo128 r
  | .mb32 => advanceMb32 r

/-- The full 64-bit product `m = x * R` (R166). -/
def product (x range : W32) : W64 := zext64 x * zext64 range

/-- `NEXTB`, up to its first draw's decision (R166): step 4, then the threshold path. -/
def execNextb (s : State) : Out :=
  if s.arch.svalid then
    let range := s.arch.range
    let d := draw32 s.arch.src s.arch
    let m := product d.2 range
    let t := threshold s.arch.var range
    if low32 m < range ∧ low32 m < t then .next (s.rejected t d.1)
    else complete d.1 (zext64 (high32 m)) s
  else fail .noSampler s

/-- One more turn of `NEXTB`'s loop (R166): redraw, and test against `t` only. -/
def redraw (t : W32) (s : State) : Out :=
  let d := draw32 s.arch.src s.arch
  let m := product d.2 s.arch.range
  if low32 m < t then .next (s.rejected t d.1) else complete d.1 (zext64 (high32 m)) s

end Sys2Proof.Machine
end

