-- ==== Sys2Proof/Machine/Status.lean ====
section
/-! DEFINITION. The status command (45_status.md). -/

namespace Sys2Proof.Machine

/-- `STAT` (R180): returns flags and sampler registers, changes no state. -/
def execStat (s : State) : Out := complete s.arch (statusWord s.arch) s

end Sys2Proof.Machine
end

