-- ==== Sys2Proof/Machine/Dispatch.lean ====
section
/-! DEFINITION. One arm per command: which meaning it has. -/

namespace Sys2Proof.Machine

def exec (i : Instr) (s : State) : Host.Outcome State Fault Refusal :=
  match i with
  | .seedXs32 => Sys2Proof.Machine.execSeedXs32 s
  | .seedXs64 => Sys2Proof.Machine.execSeedXs64 s
  | .seedXs128 => Sys2Proof.Machine.execSeedXs128 s
  | .seedXsp => Sys2Proof.Machine.execSeedXsp s
  | .seedXo128 => Sys2Proof.Machine.execSeedXo128 s
  | .seedXo256 => Sys2Proof.Machine.execSeedXo256 s
  | .seedSm64 => Sys2Proof.Machine.execSeedSm64 s
  | .seedMb32 => Sys2Proof.Machine.execSeedMb32 s
  | .nextXs32 => Sys2Proof.Machine.execNextXs32 s
  | .nextXs64 => Sys2Proof.Machine.execNextXs64 s
  | .nextXs128 => Sys2Proof.Machine.execNextXs128 s
  | .nextXsp => Sys2Proof.Machine.execNextXsp s
  | .nextXo128 => Sys2Proof.Machine.execNextXo128 s
  | .nextXo256 => Sys2Proof.Machine.execNextXo256 s
  | .nextSm64 => Sys2Proof.Machine.execNextSm64 s
  | .nextMb32 => Sys2Proof.Machine.execNextMb32 s
  | .scfg src var => Sys2Proof.Machine.execScfg src var s
  | .nextb => Sys2Proof.Machine.execNextb s
  | .cvtMul => Sys2Proof.Machine.execCvtMul s
  | .cvtBitcast => Sys2Proof.Machine.execCvtBitcast s
  | .cvtD32 => Sys2Proof.Machine.execCvtD32 s
  | .cvtD52 => Sys2Proof.Machine.execCvtD52 s
  | .stat => Sys2Proof.Machine.execStat s

end Sys2Proof.Machine
end

