-- ==== Sys2Proof/Machine/Step.lean ====
section
/-! DEFINITION. One step of the block: take what the host drives, perform it. -/

namespace Sys2Proof.Machine

/-- One step. A command word is decoded and performed; an illegal one completes with ILLEGAL_CMD, whatever the state
(60_exceptions.md R202, R205). -/
def step (s : State) : Host.Outcome State Fault Refusal :=
  match nextWork s with
  | .reset s' => .next s'.resetNow
  | .accept cmd s' =>
    match decode cmd with
    | .ok i => exec i s'
    | .error _ => fail .illegalCmd s'
  | .redraw t s' => redraw t s'
  | .idle s' => .next s'.idled

/-- `s` with the command word among the low `nbits` bits of `w` presented by the host before anything else, and the block
idle to take it. The operand ports stay as `s` holds them. This stands for the host's issuing a command (log 1). -/
def State.withFetchWord (s : State) (nbits w : Nat) : State :=
  { s with phase := .idle, host := .command (tableWord nbits w) s.ports :: s.host }

end Sys2Proof.Machine
end

