-- ==== Sys2Proof/Machine/HostMacros.lean ====
section
/-! DEFINITION. What the host does with the block that the spec fixes: the pseudo-instructions of 30_encoding.md R82 and
the pairing of two 32-bit outputs (46_assembler_contract.md R187). -/

namespace Sys2Proof.Machine

/-- `pair64(hi, lo)` (R187): the earlier output in bits 63:32. -/
def pair64 (hi lo : W64) : W64 := low32 hi ++ low32 lo

/-- The word `%w` of `NEXT2` from its two completions: not defined unless both are OK (R82). -/
def next2Word (first second : Completion) : Option W64 :=
  if first.st = .ok ∧ second.st = .ok then some (pair64 first.r second.r) else none

/-- A command presented with these ports. -/
def issue (i : Instr) (ports : Ports) : HostEvent := .command (encode i) ports

/-- The commands a pseudo-instruction stands for (R82). Ports a command does not read "are driven with anything" (R81):
`unread` and `unread'` are what the first and the second command find on them, and the model fixes neither. -/
def expand (unread unread' : Ports) : Pseudo → List HostEvent
  | .next2 src => [issue (nextInstr src.bank) unread, issue (nextInstr src.bank) unread']
  | .scfgMod src range => [issue (.scfg src.bank .modulo) { unread with a := range }]
  | .scfgOneill src range => [issue (.scfg src.bank .oneill) { unread with a := range }]

/-- The mnemonic of a command, as R78 and R81 write it. -/
def mnemonic : Instr → String
  | .seedXs32 => "SEED.XS32"
  | .seedXs64 => "SEED.XS64"
  | .seedXs128 => "SEED.XS128"
  | .seedXsp => "SEED.XSP"
  | .seedXo128 => "SEED.XO128"
  | .seedXo256 => "SEED.XO256"
  | .seedSm64 => "SEED.SM64"
  | .seedMb32 => "SEED.MB32"
  | .nextXs32 => "NEXT.XS32"
  | .nextXs64 => "NEXT.XS64"
  | .nextXs128 => "NEXT.XS128"
  | .nextXsp => "NEXT.XSP"
  | .nextXo128 => "NEXT.XO128"
  | .nextXo256 => "NEXT.XO256"
  | .nextSm64 => "NEXT.SM64"
  | .nextMb32 => "NEXT.MB32"
  | .scfg _ _ => "SCFG"
  | .nextb => "NEXTB"
  | .cvtMul => "CVT.MUL"
  | .cvtBitcast => "CVT.BITCAST"
  | .cvtD32 => "CVT.D32"
  | .cvtD52 => "CVT.D52"
  | .stat => "STAT"

end Sys2Proof.Machine
end

