-- ==== Sys2Proof/Machine/Instances.lean ====
section
/-! DEFINITION. Several instances of the block in one system (10_state.md R36, 60_exceptions.md R212): independent copies,
each with all of the state to itself; each has one issuer, its own host stream (log 12). -/

namespace Sys2Proof.Machine

/-- The instances of a system, by position. -/
abbrev System := List State

/-- A system with the configured number of instances, `N_INSTANCES` (00_scope.md R9). -/
abbrev System.wellFormed (sys : System) : Prop := sys.length = config.nInstances

/-- One step of instance `k`; which instance steps is the surroundings' choice (20_memory.md R61). -/
def System.stepAt (k : Nat) (sys : System) : Host.Outcome System Fault Refusal :=
  match sys[k]? with
  | none => .next sys
  | some s =>
    match step s with
    | .next s' => .next (sys.set k s')
    | .fault r => .fault r
    | .refused r => .refused r

end Sys2Proof.Machine
end

