-- ==== Sys2Proof/Safety.lean ====
section
/-! DEFINITION. The terms claims are stated in: the invariants of the block (10_state.md R24, R27, R30), what a failing
command leaves (60_exceptions.md R203, R204), what can be observed of a bank, and the draws of the sampler. -/

namespace Sys2Proof.Machine

/-- A command fails with `st`: it completes with that status, whatever the result port carries (R204), and changes nothing
but the completion (R203). -/
def FailsWith (st : Status) (s : State) (o : Out) : Prop :=
  ∃ r : W64, o = .next { s with
    phase := .idle, completion := some { st := st, r := r }, freeCount := s.freeCount + 1 }

/-- A command is performed: it completes with `st = OK` and result `r`, leaves `arch`, and changes nothing else. -/
def PerformedWith (arch : Arch) (r : W64) (s : State) (o : Out) : Prop :=
  o = .next { s with arch := arch, phase := .idle, completion := some { st := .ok, r := r } }

/-- The sampler registers are as R27, R28 and R30 say: a constructed sampler has a seeded source and a range of at least 1,
and before one is constructed its registers hold their reset values (45_status.md R180 corner case 2). -/
def Arch.SamplerOk (r : Arch) : Prop :=
  (r.svalid = true → r.isSeeded r.src.bank = true ∧ r.range ≠ 0) ∧
  (r.svalid = false → r.range = 0 ∧ r.src = .xs32 ∧ r.var = .modulo)

/-- While a command is in progress it is a NEXTB: a sampler exists, the threshold carried is the one of its range, and no
completion is presented (R166, R236). -/
def State.LoopOk (s : State) : Prop :=
  ∀ t, s.phase = .rejecting t →
    s.arch.svalid = true ∧ t = threshold s.arch.var s.arch.range ∧ s.completion = none

/-- None of the six xorshift and xoshiro banks holds the all-zero state while it is valid (R24, 41_xorshift.md R130,
42_xoshiro.md R144). -/
def Arch.NonzeroOk (r : Arch) : Prop :=
  (r.isSeeded .xs32 = true → r.xs32 ≠ 0) ∧
  (r.isSeeded .xs64 = true → r.xs64 ≠ 0) ∧
  (r.isSeeded .xs128 = true → r.xs128 ≠ { x := 0, y := 0, z := 0, w := 0 }) ∧
  (r.isSeeded .xsp = true → r.xsp ≠ { s0 := 0, s1 := 0 }) ∧
  (r.isSeeded .xo128 = true → r.xo128 ≠ { s0 := 0, s1 := 0, s2 := 0, s3 := 0 }) ∧
  (r.isSeeded .xo256 = true → r.xo256 ≠ { s0 := 0, s1 := 0, s2 := 0, s3 := 0 })

/-- The invariant of the sampler and its loop. -/
def State.SamplerInv (s : State) : Prop := s.arch.SamplerOk ∧ s.LoopOk

/-- The invariant of the block. -/
def State.Inv (s : State) : Prop := s.SamplerInv ∧ s.arch.NonzeroOk

/-- The state registers of one bank, in the order of R21, each widened to 64 bits. -/
def Arch.words (b : Bank) (r : Arch) : List W64 :=
  match b with
  | .xs32 => [zext64 r.xs32]
  | .xs64 => [r.xs64]
  | .xs128 => [zext64 r.xs128.x, zext64 r.xs128.y, zext64 r.xs128.z, zext64 r.xs128.w]
  | .xsp => [r.xsp.s0, r.xsp.s1]
  | .xo128 => [zext64 r.xo128.s0, zext64 r.xo128.s1, zext64 r.xo128.s2, zext64 r.xo128.s3]
  | .xo256 => [r.xo256.s0, r.xo256.s1, r.xo256.s2, r.xo256.s3]
  | .sm64 => [r.sm64]
  | .mb32 => [zext64 r.mb32]

/-- The flags and the sampler's registers agree (R25, R27 to R30). -/
def Arch.SameControl (r u : Arch) : Prop :=
  r.gvalid = u.gvalid ∧ r.range = u.range ∧ r.src = u.src ∧ r.var = u.var ∧ r.svalid = u.svalid

/-- Two completions agree: neither is presented, or both are, with the same status and, where that is OK, the same result.
The result of a failing completion is left out, since it may differ from one occasion to the next (R204). -/
def SameCompletion : Option Completion → Option Completion → Prop
  | none, none => True
  | some c, some d => c.st = d.st ∧ (c.st = .ok → c.r = d.r)
  | none, some _ => False
  | some _, none => False

/-- Two states that differ at most in the registers of banks that hold no generator (R34: those are unobservable), in the
result of a failing completion (R204), and in the model's own counter. -/
def State.SameButUnseeded (s u : State) : Prop :=
  s.arch.SameControl u.arch ∧
  (∀ b, s.arch.isSeeded b = true → s.arch.words b = u.arch.words b) ∧
  s.ports = u.ports ∧ s.phase = u.phase ∧ SameCompletion s.completion u.completion ∧ s.host = u.host

/-- The bank a command names (R22): SEED and NEXT their own, NEXTB the sampler's source. -/
def namedBank (r : Arch) : Instr → Option Bank
  | .seedXs32 | .nextXs32 => some .xs32
  | .seedXs64 | .nextXs64 => some .xs64
  | .seedXs128 | .nextXs128 => some .xs128
  | .seedXsp | .nextXsp => some .xsp
  | .seedXo128 | .nextXo128 => some .xo128
  | .seedXo256 | .nextXo256 => some .xo256
  | .seedSm64 | .nextSm64 => some .sm64
  | .seedMb32 | .nextMb32 => some .mb32
  | .nextb => some r.src.bank
  | .scfg _ _ | .cvtMul | .cvtBitcast | .cvtD32 | .cvtD52 | .stat => none

/-- The host's stream after a step that takes neither a command nor a reset: a `wait` is gone, all else stays. -/
def afterWait : List HostEvent → List HostEvent
  | .wait :: rest => rest
  | host => host

/-- `n` steps in a row, stopping at the first that gives no next state. -/
def runFor : Nat → State → Out
  | 0, s => .next s
  | n + 1, s =>
    match step s with
    | .next t => runFor n t
    | .fault r => .fault r
    | .refused r => .refused r

/-- The architectural state after `n` draws from bank `src` (R165). -/
def afterDraws (src : Source) (r : Arch) : Nat → Arch
  | 0 => r
  | n + 1 => (draw32 src (afterDraws src r n)).1

/-- The output of draw number `n`, counted from 0 (R165). -/
def drawOutput (src : Source) (r : Arch) (n : Nat) : W32 := (draw32 src (afterDraws src r n)).2

/-- The mathematical threshold `T(R) = 2^32 mod R` (R162). -/
def idealThreshold (range : W32) : Nat := 2 ^ 32 % range.toNat

/-- The draw `x` is rejected at range `R`: `(x * R) mod 2^32 < T(R)` (R170). -/
def Rejects (range x : W32) : Prop := (x.toNat * range.toNat) % 2 ^ 32 < idealThreshold range

/-- The value an accepted draw gives: `floor(x * R / 2^32)` (R166). -/
def boundedValue (range x : W32) : Nat := x.toNat * range.toNat / 2 ^ 32

end Sys2Proof.Machine
end

