-- ==== Sys2Proof/Certificates/Slice0/Obligations.lean ====
section
/-! DEFINITION. The statements about the model, from the numbered rules of spec/. A statement of the form
`PerformedWith arch r s (exec i s)` says that the command completes, gives its result, and leaves everything it does not
name as it was; `FailsWith st s (exec i s)` that it fails with `st` and changes no state. -/

open Sys2Proof Sys2Proof.Machine

/-! ### Encoding -/

/-- R78, R80: the words of the legal commands, written out, decode to the commands they stand for. -/
def Obligations.LegalWordsDecodeToTheirCommands : Prop :=
  decode 0x01#8 = .ok .seedXs32 ∧ decode 0x02#8 = .ok .nextXs32 ∧
  decode 0x11#8 = .ok .seedXs64 ∧ decode 0x12#8 = .ok .nextXs64 ∧
  decode 0x21#8 = .ok .seedXs128 ∧ decode 0x22#8 = .ok .nextXs128 ∧
  decode 0x31#8 = .ok .seedXsp ∧ decode 0x32#8 = .ok .nextXsp ∧
  decode 0x41#8 = .ok .seedXo128 ∧ decode 0x42#8 = .ok .nextXo128 ∧
  decode 0x51#8 = .ok .seedXo256 ∧ decode 0x52#8 = .ok .nextXo256 ∧
  decode 0x61#8 = .ok .seedSm64 ∧ decode 0x62#8 = .ok .nextSm64 ∧
  decode 0x71#8 = .ok .seedMb32 ∧ decode 0x72#8 = .ok .nextMb32 ∧
  decode 0x03#8 = .ok (.scfg .xs32 .modulo) ∧ decode 0x83#8 = .ok (.scfg .xs32 .oneill) ∧
  decode 0x23#8 = .ok (.scfg .xs128 .modulo) ∧ decode 0xA3#8 = .ok (.scfg .xs128 .oneill) ∧
  decode 0x43#8 = .ok (.scfg .xo128 .modulo) ∧ decode 0xC3#8 = .ok (.scfg .xo128 .oneill) ∧
  decode 0x73#8 = .ok (.scfg .mb32 .modulo) ∧ decode 0xF3#8 = .ok (.scfg .mb32 .oneill) ∧
  decode 0x04#8 = .ok .nextb ∧ decode 0x06#8 = .ok .stat ∧
  decode 0x05#8 = .ok .cvtMul ∧ decode 0x15#8 = .ok .cvtBitcast ∧
  decode 0x25#8 = .ok .cvtD32 ∧ decode 0x35#8 = .ok .cvtD52

/-- R78: "Every other value is illegal": the causes (a) to (e), each exactly on the words the rule gives it. -/
def Obligations.IllegalWordsAreRejectedByTheirCause : Prop :=
  ∀ w : W8,
    (decode w = .error .opcode ↔ opField w = 0 ∨ 7 ≤ opField w) ∧
    (decode w = .error .variantBit ↔
      opField w ∈ [1#4, 2#4, 4#4, 5#4, 6#4] ∧ w.getLsbD 7 = true) ∧
    (decode w = .error .sourceBank ↔ opField w = 3 ∧ selField w ∈ [1#3, 3#3, 5#3, 6#3]) ∧
    (decode w = .error .selNotZero ↔
      (opField w = 4 ∨ opField w = 6) ∧ w.getLsbD 7 = false ∧ selField w ≠ 0) ∧
    (decode w = .error .functionCode ↔ opField w = 5 ∧ w.getLsbD 7 = false ∧ 4 ≤ selField w)

/-- R72: neither the all-zero nor the all-ones word is a command. -/
def Obligations.StuckCommandPortIsIllegal : Prop :=
  (∀ i, decode 0x00#8 ≠ .ok i) ∧ (∀ i, decode 0xFF#8 ≠ .ok i)

/-- R70, R80: a word decodes to a command exactly when the command is well formed and the word is its encoding: decoding
inverts encoding, no two words mean the same command, and no bit of a word is dropped. -/
def Obligations.DecodeInvertsEncode : Prop :=
  ∀ (w : W8) (i : Instr), decode w = .ok i ↔ i.wellFormed = true ∧ encode i = w

/-! ### The step -/

/-- R56, R32, with the host's stream in the state (log 1): an idle block to which the host presents a command word that
decodes to `i` samples the operands, takes the command from the stream, and performs `i`. With nothing presented, an idle
block only passes over a wait and presents no completion any more (log 7): everything else is as it was. -/
def Obligations.StepPerformsThePresentedCommand : Prop :=
  (∀ (s : State) (cmd : W8) (ports : Ports) (rest : List HostEvent) (i : Instr),
    s.phase = .idle → s.host = .command cmd ports :: rest → decode cmd = .ok i →
    step s = exec i { s with host := rest, ports := ports }) ∧
  (∀ s : State, s.phase = .idle → s.host = [] → step s = .next { s with completion := none }) ∧
  (∀ (s : State) (rest : List HostEvent), s.phase = .idle → s.host = .wait :: rest →
    step s = .next { s with host := rest, completion := none })

/-- R202, R203: an idle block to which the host presents an illegal word completes with ILLEGAL_CMD whatever the state and
the operands, and changes no state; so does a term of SCFG that no word encodes (log 10). -/
def Obligations.IllegalWordCompletesIllegalCmd : Prop :=
  (∀ (s : State) (cmd : W8) (ports : Ports) (rest : List HostEvent),
    s.phase = .idle → s.host = .command cmd ports :: rest → (∀ i, decode cmd ≠ .ok i) →
    FailsWith .illegalCmd { s with host := rest, ports := ports } (step s)) ∧
  (∀ (s : State) (src : Bank) (var : Variant), (Instr.scfg src var).wellFormed = false →
    FailsWith .illegalCmd s (exec (.scfg src var) s))

/-- R236 (log 15): a command presented while the block is busy has not been issued: the step makes the running
command's next draw as if the host presented nothing, and the command stays first in the stream. -/
def Obligations.CommandPresentedWhileBusyIsNotIssued : Prop :=
  ∀ (s t : State) (cmd : W8) (ports : Ports) (rest : List HostEvent) (limit : W32),
    s.phase = .rejecting limit → s.host = .command cmd ports :: rest → step s = .next t →
    t.host = s.host ∧ t.ports = s.ports ∧ step { s with host := [] } = .next { t with host := [] }

/-- R200, R206: the block never stops: whatever the state and whatever the host drives, a step gives a next state. That a
NEXTB that never accepts a draw also has one rests on the model's one step a draw (log 2), and that no step stops is
also what the empty type of faults says (log 17). -/
def Obligations.EveryStepHasANextState : Prop :=
  ∀ s : State, ∃ t, step s = .next t

/-- R230, R232: asserting `rst`, also while NEXTB runs, puts the flags and the sampler's registers to their reset values,
abandons the command in progress without a completion, and leaves the block idle. That `rst` lands between two draws, and
that what stands behind it in the stream stays there, are the model's choices (logs 8 and 1). -/
def Obligations.ResetClearsFlagsAndAbandonsTheCommand : Prop :=
  ∀ (s : State) (rest : List HostEvent), s.host = .rst :: rest →
    ∃ t, step s = .next t ∧ t.arch.gvalid = 0 ∧ t.arch.svalid = false ∧ t.arch.range = 0 ∧
      t.arch.src = .xs32 ∧ t.arch.var = .modulo ∧ t.phase = .idle ∧ t.completion = none ∧ t.host = rest

/-- R34: the reset values of the flags and the sampler's registers. -/
def Obligations.ResetStateHoldsTheSpecifiedValues : Prop :=
  State.reset.arch.gvalid = 0x00#8 ∧ State.reset.arch.svalid = false ∧
  State.reset.arch.range = 0x00000000#32 ∧ bankCode State.reset.arch.src.bank = 0#3 ∧
  variantBit State.reset.arch.var = 0#1

/-- R231 (an inference the spec marks as its own): the block is idle after its first reset, and in every state whose flags
and sampler registers hold their reset values, which is what a reset at any time leaves, NEXT and SCFG of any bank fail
with NOT_SEEDED (SCFG also with range 0, R205), NEXTB with NO_SAMPLER, and STAT returns 0, whatever the operands and the
generator registers. -/
def Obligations.CommandsAfterResetFailCleanly : Prop :=
  State.reset.phase = .idle ∧ State.reset.arch.SameControl (Arch.reset 0) ∧
  ∀ s : State, s.arch.SameControl (Arch.reset 0) →
    (∀ b, FailsWith .notSeeded s (exec (nextInstr b) s)) ∧
    (∀ b v, (Instr.scfg b v).wellFormed = true → FailsWith .notSeeded s (exec (.scfg b v) s)) ∧
    FailsWith .noSampler s (exec .nextb s) ∧
    PerformedWith s.arch 0 s (exec .stat s)

/-! ### SEED -/

/-- R122, R124, R150, R152: the one-word SEEDs store the seed word verbatim and set the bank's flag, also over a live
generator; a zero seed word (for 32-bit banks: a zero low half) is refused. -/
def Obligations.SeedOneWordBanksStoreTheSeed : Prop :=
  (encode .seedXs32 = 0x01#8 ∧ encode .seedXs64 = 0x11#8 ∧ encode .seedSm64 = 0x61#8 ∧ encode .seedMb32 = 0x71#8) ∧
  ∀ s : State,
    (s.ports.a.setWidth 32 ≠ 0#32 →
      PerformedWith { s.arch with xs32 := s.ports.a.setWidth 32, gvalid := s.arch.gvalid ||| 0x01#8 } 0 s
        (exec .seedXs32 s)) ∧
    (s.ports.a.setWidth 32 = 0#32 → FailsWith .zeroSeed s (exec .seedXs32 s)) ∧
    (s.ports.a ≠ 0 →
      PerformedWith { s.arch with xs64 := s.ports.a, gvalid := s.arch.gvalid ||| 0x02#8 } 0 s (exec .seedXs64 s)) ∧
    (s.ports.a = 0 → FailsWith .zeroSeed s (exec .seedXs64 s)) ∧
    (s.ports.a ≠ 0 →
      PerformedWith { s.arch with sm64 := s.ports.a, gvalid := s.arch.gvalid ||| 0x40#8 } 0 s (exec .seedSm64 s)) ∧
    (s.ports.a = 0 → FailsWith .zeroSeed s (exec .seedSm64 s)) ∧
    (s.ports.a.setWidth 32 ≠ 0#32 →
      PerformedWith { s.arch with mb32 := s.ports.a.setWidth 32, gvalid := s.arch.gvalid ||| 0x80#8 } 0 s
        (exec .seedMb32 s)) ∧
    (s.ports.a.setWidth 32 = 0#32 → FailsWith .zeroSeed s (exec .seedMb32 s))

/-- R126, R128, R140, R142: the SEEDs of several words store the words on the ports in order and set the bank's flag;
they are refused only when every word is zero. -/
def Obligations.SeedManyWordBanksStoreTheSeed : Prop :=
  (encode .seedXs128 = 0x21#8 ∧ encode .seedXsp = 0x31#8 ∧ encode .seedXo128 = 0x41#8 ∧ encode .seedXo256 = 0x51#8) ∧
  ∀ s : State,
    let a := s.ports.a
    let b := s.ports.b
    let c := s.ports.c
    let d := s.ports.d
    (¬(a.setWidth 32 = 0#32 ∧ b.setWidth 32 = 0#32 ∧ c.setWidth 32 = 0#32 ∧ d.setWidth 32 = 0#32) →
      PerformedWith { s.arch with
        xs128 := { x := a.setWidth 32, y := b.setWidth 32, z := c.setWidth 32, w := d.setWidth 32 }
        gvalid := s.arch.gvalid ||| 0x04#8 } 0 s (exec .seedXs128 s)) ∧
    ((a.setWidth 32 = 0#32 ∧ b.setWidth 32 = 0#32 ∧ c.setWidth 32 = 0#32 ∧ d.setWidth 32 = 0#32) →
      FailsWith .zeroSeed s (exec .seedXs128 s)) ∧
    (¬(a = 0 ∧ b = 0) →
      PerformedWith { s.arch with xsp := { s0 := a, s1 := b }, gvalid := s.arch.gvalid ||| 0x08#8 } 0 s
        (exec .seedXsp s)) ∧
    ((a = 0 ∧ b = 0) → FailsWith .zeroSeed s (exec .seedXsp s)) ∧
    (¬(a.setWidth 32 = 0#32 ∧ b.setWidth 32 = 0#32 ∧ c.setWidth 32 = 0#32 ∧ d.setWidth 32 = 0#32) →
      PerformedWith { s.arch with
        xo128 := { s0 := a.setWidth 32, s1 := b.setWidth 32, s2 := c.setWidth 32, s3 := d.setWidth 32 }
        gvalid := s.arch.gvalid ||| 0x10#8 } 0 s (exec .seedXo128 s)) ∧
    ((a.setWidth 32 = 0#32 ∧ b.setWidth 32 = 0#32 ∧ c.setWidth 32 = 0#32 ∧ d.setWidth 32 = 0#32) →
      FailsWith .zeroSeed s (exec .seedXo128 s)) ∧
    (¬(a = 0 ∧ b = 0 ∧ c = 0 ∧ d = 0) →
      PerformedWith { s.arch with
        xo256 := { s0 := a, s1 := b, s2 := c, s3 := d }
        gvalid := s.arch.gvalid ||| 0x20#8 } 0 s (exec .seedXo256 s)) ∧
    ((a = 0 ∧ b = 0 ∧ c = 0 ∧ d = 0) → FailsWith .zeroSeed s (exec .seedXo256 s))

/-! ### NEXT -/

/-- R123: NEXT.XS32 steps a seeded bank by the shifts 13, 17, 5 and returns the full new state; an
empty bank fails with NOT_SEEDED. -/
def Obligations.NextXs32StepsByThirteenSeventeenFive : Prop :=
  encode .nextXs32 = 0x02#8 ∧
  ∀ s : State,
    let x0 := s.arch.xs32
    let x1 := x0 ^^^ (x0 <<< 13)
    let x2 := x1 ^^^ (x1 >>> 17)
    let x3 := x2 ^^^ (x2 <<< 5)
    (s.arch.gvalid.getLsbD 0 = true →
      PerformedWith { s.arch with xs32 := x3 } (x3.setWidth 64) s (exec .nextXs32 s)) ∧
    (s.arch.gvalid.getLsbD 0 = false → FailsWith .notSeeded s (exec .nextXs32 s))

/-- R125: NEXT.XS64 steps a seeded bank by the shifts 13, 7, 17 and returns the full new state; an
empty bank fails with NOT_SEEDED. -/
def Obligations.NextXs64StepsByThirteenSevenSeventeen : Prop :=
  encode .nextXs64 = 0x12#8 ∧
  ∀ s : State,
    let x0 := s.arch.xs64
    let x1 := x0 ^^^ (x0 <<< 13)
    let x2 := x1 ^^^ (x1 >>> 7)
    let x3 := x2 ^^^ (x2 <<< 17)
    (s.arch.gvalid.getLsbD 1 = true →
      PerformedWith { s.arch with xs64 := x3 } x3 s (exec .nextXs64 s)) ∧
    (s.arch.gvalid.getLsbD 1 = false → FailsWith .notSeeded s (exec .nextXs64 s))

/-- R127: NEXT.XS128 moves the words down, puts the mixed word last and returns it. The shift amounts are the parameters
of the running configuration (log 5). -/
def Obligations.NextXs128MovesTheWordsDown : Prop :=
  encode .nextXs128 = 0x22#8 ∧
  ∀ s : State,
    let g := s.arch.xs128
    let t := g.x ^^^ (g.x <<< config.xs128A)
    let neww := (g.w ^^^ (g.w >>> config.xs128C)) ^^^ (t ^^^ (t >>> config.xs128B))
    (s.arch.gvalid.getLsbD 2 = true →
      PerformedWith { s.arch with xs128 := { x := g.y, y := g.z, z := g.w, w := neww } } (neww.setWidth 64) s
        (exec .nextXs128 s)) ∧
    (s.arch.gvalid.getLsbD 2 = false → FailsWith .notSeeded s (exec .nextXs128 s))

/-- R129: NEXT.XSP returns the sum of the state words, before or after the update as `XSP_OUT_PRE` says. The amounts and
`XSP_OUT_PRE` are the parameters of the running configuration (log 5). -/
def Obligations.NextXspReturnsTheSumOfItsWords : Prop :=
  encode .nextXsp = 0x32#8 ∧
  ∀ s : State,
    let s0 := s.arch.xsp.s1
    let pre := s0 + s.arch.xsp.s0
    let s1 := s.arch.xsp.s0 ^^^ (s.arch.xsp.s0 <<< config.xspA)
    let n1 := s1 ^^^ s0 ^^^ (s1 >>> config.xspB) ^^^ (s0 >>> config.xspC)
    (s.arch.gvalid.getLsbD 3 = true →
      PerformedWith { s.arch with xsp := { s0 := s0, s1 := n1 } }
        (if config.xspOutPre = true then pre else n1 + s0) s (exec .nextXsp s)) ∧
    (s.arch.gvalid.getLsbD 3 = false → FailsWith .notSeeded s (exec .nextXsp s))

/-- R129 (an inference the spec marks as its own): with the sum after the update the output sequence is the one with
the sum before it, advanced by one step, and the state sequence is the same; for all values of the other parameters.
-/
def Obligations.XspPostSumIsThePreSumOneStepLater : Prop :=
  ∀ (c : Config) (g : Xsp),
    xspStep { c with xspOutPre := false } g = xspStep { c with xspOutPre := true } g ∧
    xspOut { c with xspOutPre := false } g =
      xspOut { c with xspOutPre := true } (xspStep { c with xspOutPre := true } g)

/-- R141: NEXT.XO128 returns `rotl(s0+s3, 7) + s0` of the state before the update, and the update is the closed form the
rule gives. The amounts are the parameters of the running configuration (log 5). -/
def Obligations.NextXo128HasItsClosedForm : Prop :=
  encode .nextXo128 = 0x42#8 ∧
  ∀ s : State,
    let g := s.arch.xo128
    let rot := fun (x : W32) (k : Nat) => (x <<< k) ||| (x >>> (32 - k))
    (s.arch.gvalid.getLsbD 4 = true →
      PerformedWith { s.arch with xo128 := {
          s0 := g.s0 ^^^ g.s3 ^^^ g.s1
          s1 := g.s1 ^^^ g.s2 ^^^ g.s0
          s2 := g.s2 ^^^ g.s0 ^^^ (g.s1 <<< config.xo128Shift)
          s3 := rot (g.s3 ^^^ g.s1) config.xo128Rot } }
        ((rot (g.s0 + g.s3) 7 + g.s0).setWidth 64) s (exec .nextXo128 s)) ∧
    (s.arch.gvalid.getLsbD 4 = false → FailsWith .notSeeded s (exec .nextXo128 s))

/-- R143: NEXT.XO256, the same structure at 64 bits. The amounts are the parameters of the running configuration
(log 5). -/
def Obligations.NextXo256HasItsClosedForm : Prop :=
  encode .nextXo256 = 0x52#8 ∧
  ∀ s : State,
    let g := s.arch.xo256
    let rot := fun (x : W64) (k : Nat) => (x <<< k) ||| (x >>> (64 - k))
    (s.arch.gvalid.getLsbD 5 = true →
      PerformedWith { s.arch with xo256 := {
          s0 := g.s0 ^^^ g.s3 ^^^ g.s1
          s1 := g.s1 ^^^ g.s2 ^^^ g.s0
          s2 := g.s2 ^^^ g.s0 ^^^ (g.s1 <<< config.xo256Shift)
          s3 := rot (g.s3 ^^^ g.s1) config.xo256Rot } }
        (rot (g.s0 + g.s3) config.xo256OutRot + g.s0) s (exec .nextXo256 s)) ∧
    (s.arch.gvalid.getLsbD 5 = false → FailsWith .notSeeded s (exec .nextXo256 s))

/-- R151: NEXT.SM64 adds the increment and returns the mix of the new counter. The shift amounts are the parameters of
the running configuration (log 5). -/
def Obligations.NextSm64AddsAndMixes : Prop :=
  encode .nextSm64 = 0x62#8 ∧
  ∀ s : State,
    let x := 0x9E3779B97F4A7C15#64 + s.arch.sm64
    let z1 := 0xBF58476D1CE4E5B9#64 * (x ^^^ (x >>> config.sm64S1))
    let z2 := 0x94D049BB133111EB#64 * (z1 ^^^ (z1 >>> config.sm64S2))
    (s.arch.gvalid.getLsbD 6 = true →
      PerformedWith { s.arch with sm64 := x } (z2 ^^^ (z2 >>> config.sm64S3)) s (exec .nextSm64 s)) ∧
    (s.arch.gvalid.getLsbD 6 = false → FailsWith .notSeeded s (exec .nextSm64 s))

/-- R153: NEXT.MB32 adds the increment and returns the mix of the new counter. The shift amounts and OR constants are
the parameters of the running configuration (log 5). -/
def Obligations.NextMb32AddsAndMixes : Prop :=
  encode .nextMb32 = 0x72#8 ∧
  ∀ s : State,
    let x := 0x6D2B79F5#32 + s.arch.mb32
    let z1 := (x ^^^ (x >>> config.mb32S1)) * (x ||| config.mb32Or1)
    let p := (z1 ^^^ (z1 >>> config.mb32S2)) * (z1 ||| config.mb32Or2)
    let z2 := z1 ^^^ (z1 + p)
    (s.arch.gvalid.getLsbD 7 = true →
      PerformedWith { s.arch with mb32 := x } ((z2 ^^^ (z2 >>> config.mb32S3)).setWidth 64) s (exec .nextMb32 s)) ∧
    (s.arch.gvalid.getLsbD 7 = false → FailsWith .notSeeded s (exec .nextMb32 s))

/-- R130, R144 (an inference the spec marks as its own): for every legal value of the parameters, none of the six
xorshift and xoshiro banks steps from a non-zero state to the all-zero state. -/
def Obligations.NonzeroStatesStayNonzero : Prop :=
  ∀ c : Config, c.Legal →
    (∀ x, x ≠ 0 → xs32Step x ≠ 0) ∧
    (∀ x, x ≠ 0 → xs64Step x ≠ 0) ∧
    (∀ g, g ≠ { x := 0, y := 0, z := 0, w := 0 } → xs128Step c g ≠ { x := 0, y := 0, z := 0, w := 0 }) ∧
    (∀ g, g ≠ { s0 := 0, s1 := 0 } → xspStep c g ≠ { s0 := 0, s1 := 0 }) ∧
    (∀ g, g ≠ { s0 := 0, s1 := 0, s2 := 0, s3 := 0 } →
      xo128Step c g ≠ { s0 := 0, s1 := 0, s2 := 0, s3 := 0 }) ∧
    (∀ g, g ≠ { s0 := 0, s1 := 0, s2 := 0, s3 := 0 } →
      xo256Step c g ≠ { s0 := 0, s1 := 0, s2 := 0, s3 := 0 })

/-- R154 (an inference the spec marks as its own): SM64 and MB32 do reach the zero state by transition, with the
ordinary completion and output 0, and step on from it; R151 and R153 corner case 2. -/
def Obligations.CountersPassThroughZero : Prop :=
  ∀ s : State,
    (s.arch.gvalid.getLsbD 6 = true → s.arch.sm64 = 0x61C8864680B583EB#64 →
      PerformedWith { s.arch with sm64 := 0 } 0 s (exec .nextSm64 s)) ∧
    (s.arch.gvalid.getLsbD 7 = true → s.arch.mb32 = 0x92D4860B#32 →
      PerformedWith { s.arch with mb32 := 0 } 0 s (exec .nextMb32 s)) ∧
    (s.arch.gvalid.getLsbD 6 = true → s.arch.sm64 = 0 →
      ∃ r, PerformedWith { s.arch with sm64 := 0x9E3779B97F4A7C15#64 } r s (exec .nextSm64 s)) ∧
    (s.arch.gvalid.getLsbD 7 = true → s.arch.mb32 = 0 →
      ∃ r, PerformedWith { s.arch with mb32 := 0x6D2B79F5#32 } r s (exec .nextMb32 s))

/-- R151 corner case 3 (an inference the spec marks as its own): for every legal value of the parameters, splitmix64's
output is a bijective function of the new counter. -/
def Obligations.SplitmixOutputIsABijectionOfTheCounter : Prop :=
  ∀ c : Config, c.Legal → Function.Bijective (sm64Mix c)

/-- R154 (an inference the spec marks as its own): the counters visit every value of their width: from any value, some
number of steps reaches any other, zero included. -/
def Obligations.CountersVisitEveryValue : Prop :=
  (∀ x y : W64, ∃ n, n < 2 ^ 64 ∧ sm64Step^[n] x = y) ∧
  (∀ x y : W32, ∃ n, n < 2 ^ 32 ∧ mb32Step^[n] x = y)

/-! ### The sampler -/

/-- R161 with R205: SCFG constructs the sampler when its source is seeded and the range is not zero; NOT_SEEDED comes
before ZERO_RANGE; it draws nothing; and a bank with a 64-bit output is no legal source. -/
def Obligations.ScfgConstructsTheSampler : Prop :=
  (encode (.scfg .xs32 .modulo) = 0x03#8 ∧ encode (.scfg .xs128 .modulo) = 0x23#8 ∧
    encode (.scfg .xo128 .modulo) = 0x43#8 ∧ encode (.scfg .mb32 .modulo) = 0x73#8 ∧
    encode (.scfg .xs32 .oneill) = 0x83#8 ∧ encode (.scfg .xs128 .oneill) = 0xA3#8 ∧
    encode (.scfg .xo128 .oneill) = 0xC3#8 ∧ encode (.scfg .mb32 .oneill) = 0xF3#8) ∧
  (∀ (s : State) (src : Source) (var : Variant),
    let range := s.ports.a.setWidth 32
    let seeded := s.arch.gvalid.getLsbD (match src with | .xs32 => 0 | .xs128 => 2 | .xo128 => 4 | .mb32 => 7)
    (seeded = true → range ≠ 0#32 →
      PerformedWith { s.arch with range := range, src := src, var := var, svalid := true } 0 s
        (exec (.scfg src.bank var) s)) ∧
    (seeded = false → FailsWith .notSeeded s (exec (.scfg src.bank var) s)) ∧
    (seeded = true → range = 0#32 → FailsWith .zeroRange s (exec (.scfg src.bank var) s))) ∧
  (∀ w : W8, opField w = 3 → selField w ∈ [1#3, 3#3, 5#3, 6#3] → ∀ i, decode w ≠ .ok i)

/-- R162, R163, R164, R168: for every range of at least 1 both procedures compute `2^32 mod R`, which is below `R`, and at
most `2^32 - R` (this bound is R170's, an inference the spec marks as its own). -/
def Obligations.BothThresholdsAreTheIdealOne : Prop :=
  ∀ range : W32, range ≠ 0 →
    (threshold0 range).toNat = (2 ^ 32 - range.toNat) % range.toNat ∧
    (threshold0 range).toNat = 2 ^ 32 % range.toNat ∧
    (threshold1 range).toNat = 2 ^ 32 % range.toNat ∧
    (threshold0 range).toNat < range.toNat ∧
    (threshold0 range).toNat ≤ 2 ^ 32 - range.toNat

/-- R166, one draw, which is one step of the model (log 2): NEXTB fails with NO_SAMPLER when there is no sampler;
otherwise it commits one draw of bank SRC and either completes with the high half of the product or, when the low half
is below the range and below the threshold of the selected variant, stays busy with that threshold and no completion.
-/
def Obligations.NextbMakesOneDrawThenDecides : Prop :=
  encode .nextb = 0x04#8 ∧
  ∀ s : State,
    (s.arch.svalid = false → FailsWith .noSampler s (exec .nextb s)) ∧
    (s.arch.svalid = true →
      let range := s.arch.range
      let drawn := draw32 s.arch.src s.arch
      let m := drawn.2.setWidth 64 * range.setWidth 64
      let t := match s.arch.var with | .modulo => threshold0 range | .oneill => threshold1 range
      (m.setWidth 32 < range → m.setWidth 32 < t →
        exec .nextb s = .next { s with arch := drawn.1, phase := .rejecting t, completion := none }) ∧
      (¬(m.setWidth 32 < range ∧ m.setWidth 32 < t) →
        PerformedWith drawn.1 (m >>> 32) s (exec .nextb s)))

/-- R166, the loop, one step a draw (log 2): while NEXTB runs and the host asserts no reset, each step redraws and tests
the low half against the threshold only. A wait at the head of the stream is passed over, a command there stays (logs 1
and 15). -/
def Obligations.BusyStepRedrawsAgainstTheThreshold : Prop :=
  ∀ (s : State) (t : W32), s.phase = .rejecting t → (∀ rest, s.host ≠ .rst :: rest) →
    let drawn := draw32 s.arch.src s.arch
    let m := drawn.2.setWidth 64 * s.arch.range.setWidth 64
    (m.setWidth 32 < t →
      step s = .next { s with arch := drawn.1, phase := .rejecting t, completion := none, host := afterWait s.host }) ∧
    (¬ m.setWidth 32 < t → PerformedWith drawn.1 (m >>> 32) { s with host := afterWait s.host } (step s))

/-- R166: the whole command, one step a draw (log 2). If draw number `n` of bank SRC is the first accepted one, NEXTB
completes after `n + 1` steps with `floor(x * R / 2^32)` of that draw's `x`, the bank advanced by `n + 1` transitions,
and everything else as it was, for either variant and whatever follows in the stream but a reset: each of the `n` later
draws passes over one wait at its head, and commands stay (logs 1 and 15). -/
def Obligations.NextbReturnsItsFirstAcceptedDraw : Prop :=
  ∀ (s : State) (ports : Ports) (rest : List HostEvent) (n : Nat),
    s.phase = .idle → s.host = .command 0x04#8 ports :: rest → .rst ∉ rest →
    s.arch.svalid = true → s.arch.range ≠ 0 →
    (∀ k, k < n → Rejects s.arch.range (drawOutput s.arch.src s.arch k)) →
    ¬ Rejects s.arch.range (drawOutput s.arch.src s.arch n) →
    runFor (n + 1) s = .next { s with
      arch := afterDraws s.arch.src s.arch (n + 1)
      ports := ports
      host := afterWait^[n] rest
      completion := some {
        st := .ok, r := BitVec.ofNat 64 (boundedValue s.arch.range (drawOutput s.arch.src s.arch n)) } }

/-- R238: NEXTB has no cap, one step a draw (log 2): as long as every draw is rejected and no reset comes, the block stays
busy and presents no completion, however many draws that are, whatever follows in the stream. -/
def Obligations.NextbStaysBusyWhileEveryDrawIsRejected : Prop :=
  ∀ (s : State) (ports : Ports) (rest : List HostEvent) (n : Nat),
    s.phase = .idle → s.host = .command 0x04#8 ports :: rest → .rst ∉ rest →
    s.arch.svalid = true → s.arch.range ≠ 0 →
    (∀ k, k ≤ n → Rejects s.arch.range (drawOutput s.arch.src s.arch k)) →
    ∃ t u, runFor (n + 1) s = .next u ∧ u.phase = .rejecting t ∧ u.completion = none ∧
      u.arch = afterDraws s.arch.src s.arch (n + 1)

/-- R165: a draw is the transition of bank SRC exactly as its NEXT makes it: NEXTB's first draw, and each later one (a step
of its own, log 2), leaves the architectural state NEXT of that bank leaves, whether the draw is accepted or rejected,
and the word drawn is NEXT's output. -/
def Obligations.DrawIsTheSourceBanksNext : Prop :=
  ∀ s : State, s.arch.isSeeded s.arch.src.bank = true →
    ∃ u, exec (nextInstr s.arch.src.bank) s = .next u ∧
      u.completion = some { st := .ok, r := (draw32 s.arch.src s.arch).2.setWidth 64 } ∧
      (s.arch.svalid = true → ∃ t, exec .nextb s = .next t ∧ t.arch = u.arch) ∧
      (∀ limit, ∃ t, redraw limit s = .next t ∧ t.arch = u.arch)

/-- R168 (an inference the spec marks as its own): VAR changes no result of NEXTB and no state it writes: two states that
differ only in VAR give the same outcome up to VAR, on NEXTB's first draw and on each later one (steps of their own,
log 2); and without a sampler both fail alike, whatever the result port carries. -/
def Obligations.VariantIsNotObservableThroughNextb : Prop :=
  ∀ (s : State) (v : Variant),
    let other := { s with arch := { s.arch with var := v } }
    (s.arch.svalid = true → s.arch.range ≠ 0 → ∀ t, exec .nextb s = .next t →
      exec .nextb other = .next { t with arch := { t.arch with var := v } }) ∧
    (s.arch.svalid = false → FailsWith .noSampler s (exec .nextb s) ∧ FailsWith .noSampler other (exec .nextb other)) ∧
    (∀ limit t, redraw limit s = .next t →
      redraw limit other = .next { t with arch := { t.arch with var := v } })

/-- R169 (for every range and source, an inference the spec marks as its own): the range law: a value NEXTB completes
with, on its first draw or on a later one (a step of its own, log 2), is below RANGE. -/
def Obligations.NextbResultsAreBelowTheRange : Prop :=
  ∀ (s t : State) (r : W64), s.arch.range ≠ 0 → t.completion = some { st := .ok, r := r } →
    (exec .nextb s = .next t → r.toNat < s.arch.range.toNat) ∧
    (∀ limit, redraw limit s = .next t → r.toNat < s.arch.range.toNat)

/-- R167 (with inferences the spec marks as its own): the edge cases of a draw `x`: at range 1 every draw is accepted
and gives 0; at range 0xFFFFFFFF only `x = 0` is rejected; at a power of two nothing is rejected and the top bits of
`x` result; `low = t` and `low = R` are accepted; and `x = 0` is rejected exactly when the threshold is not 0. That a
rejected draw leaves the block busy, with no completion, is the model's one step a draw (log 2). -/
def Obligations.SamplerEdgeCases : Prop :=
  ∀ s : State, s.arch.svalid = true → s.arch.range ≠ 0 →
    let x := (draw32 s.arch.src s.arch).2
    let drawn := (draw32 s.arch.src s.arch).1
    let low := (x.toNat * s.arch.range.toNat) % 2 ^ 32
    (s.arch.range = 1 → PerformedWith drawn 0 s (exec .nextb s)) ∧
    (s.arch.range = 0xFFFFFFFF#32 →
      (x = 0 → exec .nextb s = .next { s with arch := drawn, phase := .rejecting 1, completion := none }) ∧
      (x ≠ 0 → ∃ r, PerformedWith drawn r s (exec .nextb s))) ∧
    (∀ k, k ≤ 31 → s.arch.range.toNat = 2 ^ k →
      PerformedWith drawn ((x.setWidth 64) >>> (32 - k)) s (exec .nextb s)) ∧
    (low = idealThreshold s.arch.range ∨ low = s.arch.range.toNat →
      ∃ r, PerformedWith drawn r s (exec .nextb s)) ∧
    (x = 0 → idealThreshold s.arch.range = 0 → PerformedWith drawn 0 s (exec .nextb s)) ∧
    (x = 0 → idealThreshold s.arch.range ≠ 0 → ∃ t u, exec .nextb s = .next u ∧ u.phase = .rejecting t)

/-- R170 (an inference the spec marks as its own): uniformity, of the tests and the result of NEXTB, by either procedure:
the first draw's two tests reject what the threshold's test alone rejects; of the `2^32` possible draws exactly `T(R)`
are rejected; and every value below `R` comes from the same number of accepted draws, `floor(2^32 / R)`. -/
def Obligations.AcceptedDrawsAreUniform : Prop :=
  ∀ (range : W32) (v : Variant), range ≠ 0 →
    (∀ x : W32, low32 (product x range) < range ∧ low32 (product x range) < threshold v range ↔
      low32 (product x range) < threshold v range) ∧
    Set.ncard { x : W32 | low32 (product x range) < threshold v range } = 2 ^ 32 % range.toNat ∧
    ∀ y : W32, y < range →
      Set.ncard { x : W32 | ¬ low32 (product x range) < threshold v range ∧ high32 (product x range) = y } =
        2 ^ 32 / range.toNat

/-- R170 (an inference the spec marks as its own): by NEXTB's test of the low half of the product against the threshold of
either procedure, a draw `x = 1` is always accepted, and at every range fewer than half of the `2^32` draws are
rejected, and fewer than `R` of them. -/
def Obligations.FewerThanHalfOfTheDrawsAreRejected : Prop :=
  ∀ (range : W32) (v : Variant), range ≠ 0 →
    ¬ low32 (product 1 range) < threshold v range ∧
    2 * Set.ncard { x : W32 | low32 (product x range) < threshold v range } < 2 ^ 32 ∧
    Set.ncard { x : W32 | low32 (product x range) < threshold v range } < range.toNat

/-- R171, R33 (an inference the spec marks as its own): NEXTB's outcome is a function of RANGE, SRC and the state of bank
SRC: two states that agree on those and on the existence of a sampler complete alike, or stay busy alike, and leave bank
SRC alike, on NEXTB's first draw and on each later one with the same threshold (steps of their own, log 2). -/
def Obligations.NextbDependsOnRangeAndSourceOnly : Prop :=
  ∀ s u s' u' : State,
    s.arch.range = u.arch.range → s.arch.src = u.arch.src →
    s.arch.words s.arch.src.bank = u.arch.words s.arch.src.bank →
    (s.arch.svalid = true → u.arch.svalid = true → s.arch.range ≠ 0 →
      exec .nextb s = .next s' → exec .nextb u = .next u' →
      s'.completion = u'.completion ∧ s'.phase = u'.phase ∧
      s'.arch.words s.arch.src.bank = u'.arch.words s.arch.src.bank) ∧
    (∀ limit, redraw limit s = .next s' → redraw limit u = .next u' →
      s'.completion = u'.completion ∧ s'.phase = u'.phase ∧
      s'.arch.words s.arch.src.bank = u'.arch.words s.arch.src.bank)

/-! ### Conversions -/

/-- R100: the four conversions always complete with OK, change no state, and their result depends on the operand ports
alone. -/
def Obligations.ConversionsArePure : Prop :=
  ∀ i ∈ [Instr.cvtMul, .cvtBitcast, .cvtD32, .cvtD52], ∀ ports : Ports,
    ∃ r, ∀ s : State, s.ports = ports → PerformedWith s.arch r s (exec i s)

/-- R101 (an inference the spec marks as its own): `exact_f64(n, e)` is the pattern of exactly `n * 2^-e`: +0 for `n =
0`, otherwise a positive normal number with biased exponent between 959 and 1075 whose significand, `n` shifted up to
bit 52, times its power of two is `n * 2^-e`. -/
def Obligations.ExactF64IsExact : Prop :=
  ∀ n e : Nat, n < 2 ^ 53 → e ≤ 64 →
    (n = 0 → exactF64 n e = 0) ∧
    (n ≠ 0 →
      959 ≤ ((exactF64 n e).extractLsb' 52 11).toNat ∧ ((exactF64 n e).extractLsb' 52 11).toNat ≤ 1075 ∧
      f64FromBits (exactF64 n e) =
        .fin false (n * 2 ^ (52 - Nat.log2 n)) ((Nat.log2 n : Int) - 52 - e))

/-- R102: CVT.MUL gives RR's formula, which is exactly `floor(x / 2^11) * 2^-53`. -/
def Obligations.CvtMulIsExact : Prop :=
  encode .cvtMul = 0x05#8 ∧
  ∀ s : State,
    let n := s.ports.a.toNat / 2 ^ 11
    PerformedWith s.arch (exactF64 n 53) s (exec .cvtMul s) ∧
    f64Mul (intToF64 n) 0x3CA0000000000000#64 = exactF64 n 53

/-- R103: CVT.BITCAST gives RR's formula, which is exactly `floor(x / 2^12) * 2^-52`; and it equals CVT.MUL with bit
11 of `x` cleared (the last clause is an inference the spec marks as its own). -/
def Obligations.CvtBitcastIsExact : Prop :=
  encode .cvtBitcast = 0x15#8 ∧
  ∀ s : State,
    let k := s.ports.a.toNat / 2 ^ 12
    PerformedWith s.arch (exactF64 k 52) s (exec .cvtBitcast s) ∧
    f64Sub (0x3FF0000000000000#64 ||| (s.ports.a >>> 12)) 0x3FF0000000000000#64 = exactF64 k 52 ∧
    toDoubleBitcast s.ports.a = toDoubleMul (s.ports.a &&& ~~~0x800#64)

/-- R104, at RR's offset 0.5: CVT.D32 gives RR's formula, which is exactly `(iRan1 + 2^31) * 2^-32`; `a[63:32]` is
ignored. -/
def Obligations.CvtD32IsExact : Prop :=
  encode .cvtD32 = 0x25#8 ∧ config.d32Offset = 0x3FE0000000000000#64 ∧
  ∀ s : State,
    let iRan1 := s.ports.a.setWidth 32
    let u := (iRan1 ^^^ 0x80000000#32).toNat
    (u : Int) = iRan1.toInt + 2 ^ 31 ∧
    PerformedWith s.arch (exactF64 u 32) s (exec .cvtD32 s) ∧
    f64Add (f64Mul (intToF64 iRan1.toInt) 0x3DF0000000000000#64) 0x3FE0000000000000#64 = exactF64 u 32

/-- R105, at the default parameters (log 5): CVT.D52 is exactly `(u * 2^21 + lo20 * 2 + 1) * 2^-53` with
`u = iRan1 + 2^31`; only `b[19:0]` matters of `b`. -/
def Obligations.CvtD52IsExact : Prop :=
  encode .cvtD52 = 0x35#8 ∧
  ∀ s : State,
    let u := (s.ports.a.setWidth 32 ^^^ 0x80000000#32).toNat
    let lo20 := s.ports.b.toNat % 2 ^ 20
    PerformedWith s.arch (exactF64 (u * 2 ^ 21 + lo20 * 2 + 1) 53) s (exec .cvtD52 s)

/-- R106, R107 (an inference the spec marks as its own): every result of a conversion, at the default parameters (log
5), is +0 or a positive normal number below 1.0: no negative zero, subnormal, infinity or NaN. -/
def Obligations.ConversionResultsLieInTheUnitInterval : Prop :=
  ∀ i ∈ [Instr.cvtMul, .cvtBitcast, .cvtD32, .cvtD52], ∀ s t : State, ∀ c : Completion,
    exec i s = .next t → t.completion = some c →
    c.r = 0 ∨ (0x0010000000000000 ≤ c.r.toNat ∧ c.r.toNat < 0x3FF0000000000000)

/-- R106 (an inference the spec marks as its own): the exact result sets at the default parameters (log 5), each value
of a set from a different pattern. -/
def Obligations.ConversionResultSets : Prop :=
  (∀ p, (∃ x, toDoubleMul x = p) ↔ ∃ n < 2 ^ 53, exactF64 n 53 = p) ∧
  (∀ p, (∃ x, toDoubleBitcast x = p) ↔ ∃ k < 2 ^ 52, exactF64 k 52 = p) ∧
  (∀ p, (∃ x, toDoubleD32 config x = p) ↔ ∃ u < 2 ^ 32, exactF64 u 32 = p) ∧
  (∀ p, (∃ x b, toDoubleD52 config x (low20 b) = p) ↔ ∃ n < 2 ^ 53, n % 2 = 1 ∧ exactF64 n 53 = p) ∧
  (∀ n m e, n < 2 ^ 53 → m < 2 ^ 53 → e ≤ 64 → exactF64 n e = exactF64 m e → n = m)

/-! ### Status, flags, frames -/

/-- R180: STAT returns GVALID, SVALID, SRC, VAR and RANGE in their fields, zero between, and changes no state; right
after reset all of it reads as 0. -/
def Obligations.StatReportsFlagsAndSampler : Prop :=
  encode .stat = 0x06#8 ∧
  (∀ s : State, ∃ r : W64,
    PerformedWith s.arch r s (exec .stat s) ∧
    r.extractLsb' 0 8 = s.arch.gvalid ∧ r.getLsbD 8 = s.arch.svalid ∧
    r.extractLsb' 9 3 = (match s.arch.src with | .xs32 => 0#3 | .xs128 => 2#3 | .xo128 => 4#3 | .mb32 => 7#3) ∧
    r.extractLsb' 12 1 = (match s.arch.var with | .modulo => 0#1 | .oneill => 1#1) ∧
    r.extractLsb' 13 19 = 0 ∧ r.extractLsb' 32 32 = s.arch.range) ∧
  PerformedWith State.reset.arch 0 State.reset (exec .stat State.reset)

/-- R201: the status codes, and that the block never drives 6 or 7. -/
def Obligations.StatusCodesAreAsListed : Prop :=
  Status.code .ok = 0 ∧ Status.code .illegalCmd = 1 ∧ Status.code .zeroSeed = 2 ∧ Status.code .zeroRange = 3 ∧
  Status.code .notSeeded = 4 ∧ Status.code .noSampler = 5 ∧ ∀ st : Status, st.code ≠ 6 ∧ st.code ≠ 7

/-- R203: a completion whose status is not OK, of a command or of an illegal word, leaves the architectural state as it
was and the block idle, ready for the next command. -/
def Obligations.FailingCommandsChangeNothing : Prop :=
  (∀ (i : Instr) (s t : State) (c : Completion), exec i s = .next t → t.completion = some c → c.st ≠ .ok →
    t.arch = s.arch ∧ t.phase = .idle ∧ t.host = s.host ∧ t.ports = s.ports) ∧
  (∀ (s t : State) (c : Completion), step s = .next t → t.completion = some c → c.st ≠ .ok →
    t.arch = s.arch ∧ t.phase = .idle)

/-- R25: GVALID[i] becomes 1 by a successful SEED of bank `i` and by nothing else; no command clears it, nor does a later
draw of NEXTB (a step of its own, log 2); asserted `rst` clears all of it. -/
def Obligations.GvalidIsSetBySeedAndClearedByReset : Prop :=
  (∀ (i : Instr) (b : Bank) (s t : State), exec i s = .next t →
    (t.arch.isSeeded b = true ↔
      s.arch.isSeeded b = true ∨ (i = seedInstr b ∧ ∃ r, t.completion = some { st := .ok, r := r }))) ∧
  (∀ (limit : W32) (s t : State), redraw limit s = .next t → t.arch.gvalid = s.arch.gvalid) ∧
  (∀ (s t : State) (rest : List HostEvent), s.host = .rst :: rest → step s = .next t →
    ∀ b, t.arch.isSeeded b = false)

/-- R22: a command writes only the state registers of the bank it names and that bank's flag: every register and flag of
every other bank is as it was (SCFG, CVT and STAT name no bank and write none). So does each later draw of NEXTB, which
names bank SRC (a step of its own, log 2), and it writes no flag at all. -/
def Obligations.CommandsWriteOnlyTheBankTheyName : Prop :=
  (∀ (i : Instr) (s t : State), exec i s = .next t →
    ∀ b, namedBank s.arch i ≠ some b →
      t.arch.words b = s.arch.words b ∧ t.arch.isSeeded b = s.arch.isSeeded b) ∧
  (∀ (limit : W32) (s t : State), redraw limit s = .next t →
    t.arch.gvalid = s.arch.gvalid ∧ ∀ b, b ≠ s.arch.src.bank → t.arch.words b = s.arch.words b)

/-- R22, R121: NEXT reads only the bank it names: two states that agree on that bank's registers and flag complete alike
and leave that bank alike, whatever else they hold and whatever is on the ports. -/
def Obligations.NextReadsOnlyItsOwnBank : Prop :=
  ∀ (b : Bank) (s u s' u' : State),
    s.arch.words b = u.arch.words b → s.arch.isSeeded b = true → u.arch.isSeeded b = true →
    exec (nextInstr b) s = .next s' → exec (nextInstr b) u = .next u' →
    s'.completion = u'.completion ∧ s'.arch.words b = u'.arch.words b

/-- R27 to R30, R161: the sampler's registers are written by a successful SCFG and by no other command, nor by a later
draw of NEXTB (a step of its own, log 2). -/
def Obligations.OnlyScfgWritesTheSampler : Prop :=
  (∀ (i : Instr) (s t : State), exec i s = .next t → (∀ src var, i ≠ .scfg src var) →
    t.arch.range = s.arch.range ∧ t.arch.src = s.arch.src ∧ t.arch.var = s.arch.var ∧
      t.arch.svalid = s.arch.svalid) ∧
  (∀ (limit : W32) (s t : State), redraw limit s = .next t →
    t.arch.range = s.arch.range ∧ t.arch.src = s.arch.src ∧ t.arch.var = s.arch.var ∧
      t.arch.svalid = s.arch.svalid)

/-! ### Invariants -/

/-- The invariant holds right after reset. -/
def Obligations.InvariantHoldsAtReset : Prop := State.reset.Inv

/-- R30 (with R27, R161; an inference the spec marks as its own): every step keeps the sampler's invariant: a constructed
sampler has a seeded source with a 32-bit output and a range of at least 1; before one is constructed RANGE, SRC and VAR
hold their reset values (R180 corner case 2); and a running NEXTB has a sampler, carries the threshold of its range and
presents no completion, which is the model's form of the loop, one step a draw (log 2). -/
def Obligations.StepsKeepTheSamplerInvariant : Prop :=
  ∀ s t : State, s.SamplerInv → step s = .next t → t.SamplerInv

/-- R24, R130, R144 (an inference the spec marks as its own; at the default parameters, log 5): every step keeps the
invariant that no valid xorshift or xoshiro bank is all zero. -/
def Obligations.StepsKeepValidBanksNonzero : Prop :=
  ∀ s t : State, s.arch.NonzeroOk → step s = .next t → t.arch.NonzeroOk

/-- R34, R234 (an inference the spec marks as its own): what reset leaves in the state registers is not observable: two
states that meet the sampler's invariant and differ at most in banks that hold no generator step alike, with completions
that agree in their status and, where it is OK, in their result, and again differ at most so. The result of a failing
completion and the model's counter are not compared (R204; logs 3 and 6). -/
def Obligations.UnseededContentsAreNotObservable : Prop :=
  ∀ s u s' u' : State, s.SamplerInv → s.SameButUnseeded u → step s = .next s' → step u = .next u' →
    s'.SameButUnseeded u'

/-! ### The host's side, several instances -/

/-- R82, R187: NEXT2 of a seeded 32-bit-output bank is two NEXTs, and the word the host forms has the earlier output in
bits 63:32 and the later one in bits 31:0; of an empty bank no word is defined. SCFG.MOD and SCFG.ONEILL are SCFG with
the variant 0 and 1 and the range on port `a`. Ports a command does not read carry anything (R81). -/
def Obligations.PseudoInstructionsRunAsTheirExpansions : Prop :=
  ∀ (s : State) (src : Source) (unread unread' : Ports), s.phase = .idle →
    (s.host = expand unread unread' (.next2 src) → s.arch.isSeeded src.bank = true →
      ∃ t u first second w, step s = .next t ∧ t.completion = some first ∧
        step t = .next u ∧ u.completion = some second ∧ u.host = [] ∧
        u.arch = afterDraws src s.arch 2 ∧ next2Word first second = some w ∧
        w.extractLsb' 32 32 = drawOutput src s.arch 0 ∧ w.extractLsb' 0 32 = drawOutput src s.arch 1) ∧
    (s.host = expand unread unread' (.next2 src) → s.arch.isSeeded src.bank = false →
      ∃ t u first second, step s = .next t ∧ t.completion = some first ∧
        step t = .next u ∧ u.completion = some second ∧ u.host = [] ∧
        u.arch = s.arch ∧ next2Word first second = none) ∧
    (∀ range, s.host = expand unread unread' (.scfgMod src range) →
      step s = exec (.scfg src.bank .modulo) { s with host := [], ports := { unread with a := range } }) ∧
    (∀ range, s.host = expand unread unread' (.scfgOneill src range) →
      step s = exec (.scfg src.bank .oneill) { s with host := [], ports := { unread with a := range } })

/-- R36, R61, with a system as a list of instances of which the surroundings choose one to step (log 12): instances share
nothing: a step of one leaves every other as it was. -/
def Obligations.InstancesShareNothing : Prop :=
  ∀ (sys sys' : System) (j k : Nat), System.stepAt k sys = .next sys' → j ≠ k →
    sys'[j]? = sys[j]? ∧ sys'.length = sys.length
end

