-- ==== Sys2Proof/Laws/Bits.lean ====
section
/-! SUPPORT. The bit operations of 00_scope.md R11 at any width and any legal amount: xor with a shift of itself and
rotation send only zero to zero; the narrow operand forms on zero and on widened values. -/

namespace Sys2Proof.Machine

/-- A left xor-shift by at least 1 sends only 0 to 0: the bits come back from the bottom. -/
theorem xorShl_eq_zero {w k : Nat} {x : BitVec w} (hk : 1 ≤ k) (h : xorShl x k = 0#w) : x = 0#w := by
  have bit : ∀ i, i < w → x.getLsbD i = false := by
    intro i
    induction i using Nat.strongRecOn with
    | _ i ih =>
      intro hi
      have e := congrArg (fun y => BitVec.getLsbD y i) h
      simp only [xorShl, BitVec.getLsbD_xor, BitVec.getLsbD_shiftLeft, BitVec.getLsbD_zero, hi, decide_true,
        Bool.true_and] at e
      by_cases hik : i < k
      · simpa [hik] using e
      · have := ih (i - k) (by omega) (by omega)
        simpa [hik, this] using e
  apply BitVec.eq_of_getLsbD_eq
  intro i hi
  simpa using bit i hi

/-- A right xor-shift by at least 1 sends only 0 to 0: the bits come back from the top. -/
theorem xorShr_eq_zero {w k : Nat} {x : BitVec w} (hk : 1 ≤ k) (h : xorShr x k = 0#w) : x = 0#w := by
  have bit : ∀ j i, w - j ≤ i → x.getLsbD i = false := by
    intro j
    induction j with
    | zero => intro i hi; exact BitVec.getLsbD_of_ge x i (by omega)
    | succ j ih =>
      intro i hi
      by_cases hw : w ≤ i
      · exact BitVec.getLsbD_of_ge x i hw
      · have e := congrArg (fun y => BitVec.getLsbD y i) h
        have up := ih (k + i) (by omega)
        simpa [xorShr, BitVec.getLsbD_xor, BitVec.getLsbD_ushiftRight, up] using e
  apply BitVec.eq_of_getLsbD_eq
  intro i hi
  simpa using bit w i (by omega)

/-- A rotation by a legal amount sends only 0 to 0. -/
theorem rotl_eq_zero {w k : Nat} {x : BitVec w} (hk : k < w) (h : rotl x k = 0#w) : x = 0#w := by
  apply BitVec.eq_of_getLsbD_eq
  intro i hi
  by_cases hik : i + k < w
  · have e := congrArg (fun y => BitVec.getLsbD y (i + k)) h
    simp only [rotl, BitVec.getLsbD_or, BitVec.getLsbD_shiftLeft, BitVec.getLsbD_ushiftRight,
      BitVec.getLsbD_zero, hik, decide_true, Bool.true_and, Bool.or_eq_false_iff] at e
    simpa using e.1
  · have e := congrArg (fun y => BitVec.getLsbD y (i + k - w)) h
    simp only [rotl, BitVec.getLsbD_or, BitVec.getLsbD_ushiftRight,
      BitVec.getLsbD_zero, Bool.or_eq_false_iff] at e
    have := e.2
    rw [show w - k + (i + k - w) = i by omega] at this
    simpa using this

theorem xorShl_xor {w : Nat} (x y : BitVec w) (k : Nat) : xorShl (x ^^^ y) k = xorShl x k ^^^ xorShl y k := by
  simp only [xorShl, BitVec.shiftLeft_xor_distrib]; ac_rfl

theorem xorShr_xor {w : Nat} (x y : BitVec w) (k : Nat) : xorShr (x ^^^ y) k = xorShr x k ^^^ xorShr y k := by
  simp only [xorShr, BitVec.ushiftRight_xor_distrib]; ac_rfl

@[simp] theorem xorShl_zero {w : Nat} (k : Nat) : xorShl (0 : BitVec w) k = 0 := by simp [xorShl]

@[simp] theorem xorShr_zero {w : Nat} (k : Nat) : xorShr (0 : BitVec w) k = 0 := by simp [xorShr]

@[simp] theorem low32_zext64 (x : W32) : low32 (zext64 x) = x := by
  simp [low32, zext64]

theorem zext64_injective : Function.Injective zext64 := fun x y h => by
  have := congrArg low32 h; simpa using this

/-- The signed reading of R12 is two's complement. -/
theorem s32_eq_toInt (v : W32) : s32 v = v.toInt := by
  simp only [s32, BitVec.toInt]
  split <;> split <;> omega

/-- Turning the top bit moves the signed reading up by `2^31` (40_conversions.md R104, R105). -/
theorem toNat_xor_topBit (v : W32) : ((v ^^^ 0x80000000#32).toNat : Int) = s32 v + 2 ^ 31 := by
  have hv : v.toNat < 2 ^ 32 := v.isLt
  have hx : (v ^^^ 0x80000000#32).toNat = v.toNat ^^^ 2 ^ 31 := by
    rw [BitVec.toNat_xor]; rfl
  have hdiv : (v.toNat ^^^ 2 ^ 31) / 2 ^ 31 = v.toNat / 2 ^ 31 ^^^ 1 := by
    rw [Nat.xor_div_two_pow]; rfl
  have hmod : (v.toNat ^^^ 2 ^ 31) % 2 ^ 31 = v.toNat % 2 ^ 31 := by
    rw [Nat.xor_mod_two_pow]; simp
  have htop : v.toNat / 2 ^ 31 = 0 ∨ v.toNat / 2 ^ 31 = 1 := by omega
  rw [hx, s32]
  generalize v.toNat ^^^ 2 ^ 31 = y at hdiv hmod
  rcases htop with h | h <;> rw [h] at hdiv <;> simp only [Nat.reduceXor] at hdiv <;> split <;> omega

end Sys2Proof.Machine
end

