-- ==== Sys2Proof/Laws/State.lean ====
section
/-! SUPPORT. What each named update of the state does to each field: one lemma a field, true by rfl, so that no proof
unfolds a record update. -/

namespace Sys2Proof.Machine

section
variable (s : State) (r : Arch) (v : W64) (t : W32) (st : Status) (b : Bank)

/-! `State.completed` -/
@[simp] theorem State.completed_arch : (s.completed r v).arch = r := rfl
@[simp] theorem State.completed_ports : (s.completed r v).ports = s.ports := rfl
@[simp] theorem State.completed_phase : (s.completed r v).phase = .idle := rfl
@[simp] theorem State.completed_completion : (s.completed r v).completion = some { st := .ok, r := v } := rfl
@[simp] theorem State.completed_host : (s.completed r v).host = s.host := rfl
@[simp] theorem State.completed_freeCount : (s.completed r v).freeCount = s.freeCount := rfl

/-! `State.failed` -/
@[simp] theorem State.failed_arch : (s.failed st).arch = s.arch := rfl
@[simp] theorem State.failed_ports : (s.failed st).ports = s.ports := rfl
@[simp] theorem State.failed_phase : (s.failed st).phase = .idle := rfl
@[simp] theorem State.failed_completion :
    (s.failed st).completion = some { st := st, r := Config.freeResult s.freeCount } := rfl
@[simp] theorem State.failed_host : (s.failed st).host = s.host := rfl
@[simp] theorem State.failed_freeCount : (s.failed st).freeCount = s.freeCount + 1 := rfl

/-! `State.rejected` -/
@[simp] theorem State.rejected_arch : (s.rejected t r).arch = r := rfl
@[simp] theorem State.rejected_ports : (s.rejected t r).ports = s.ports := rfl
@[simp] theorem State.rejected_phase : (s.rejected t r).phase = .rejecting t := rfl
@[simp] theorem State.rejected_completion : (s.rejected t r).completion = none := rfl
@[simp] theorem State.rejected_host : (s.rejected t r).host = s.host := rfl
@[simp] theorem State.rejected_freeCount : (s.rejected t r).freeCount = s.freeCount := rfl

/-! `State.idled` -/
@[simp] theorem State.idled_arch : s.idled.arch = s.arch := rfl
@[simp] theorem State.idled_ports : s.idled.ports = s.ports := rfl
@[simp] theorem State.idled_phase : s.idled.phase = s.phase := rfl
@[simp] theorem State.idled_completion : s.idled.completion = none := rfl
@[simp] theorem State.idled_host : s.idled.host = s.host := rfl
@[simp] theorem State.idled_freeCount : s.idled.freeCount = s.freeCount := rfl

/-! `State.resetNow` -/
@[simp] theorem State.resetNow_arch : s.resetNow.arch = Arch.reset s.freeCount := rfl
@[simp] theorem State.resetNow_ports : s.resetNow.ports = { a := 0, b := 0, c := 0, d := 0 } := rfl
@[simp] theorem State.resetNow_phase : s.resetNow.phase = .idle := rfl
@[simp] theorem State.resetNow_completion : s.resetNow.completion = none := rfl
@[simp] theorem State.resetNow_host : s.resetNow.host = s.host := rfl
@[simp] theorem State.resetNow_freeCount : s.resetNow.freeCount = s.freeCount + 1 := rfl

/-! `Arch.reset` -/
@[simp] theorem Arch.reset_gvalid (n : Nat) : (Arch.reset n).gvalid = 0 := rfl
@[simp] theorem Arch.reset_range (n : Nat) : (Arch.reset n).range = 0 := rfl
@[simp] theorem Arch.reset_src (n : Nat) : (Arch.reset n).src = .xs32 := rfl
@[simp] theorem Arch.reset_var (n : Nat) : (Arch.reset n).var = .modulo := rfl
@[simp] theorem Arch.reset_svalid (n : Nat) : (Arch.reset n).svalid = false := rfl
@[simp] theorem Arch.reset_isSeeded (n : Nat) : (Arch.reset n).isSeeded b = false := by
  simp [Arch.isSeeded]

/-! `Arch.markSeeded` -/
@[simp] theorem Arch.markSeeded_xs32 : (r.markSeeded b).xs32 = r.xs32 := rfl
@[simp] theorem Arch.markSeeded_xs64 : (r.markSeeded b).xs64 = r.xs64 := rfl
@[simp] theorem Arch.markSeeded_xs128 : (r.markSeeded b).xs128 = r.xs128 := rfl
@[simp] theorem Arch.markSeeded_xsp : (r.markSeeded b).xsp = r.xsp := rfl
@[simp] theorem Arch.markSeeded_xo128 : (r.markSeeded b).xo128 = r.xo128 := rfl
@[simp] theorem Arch.markSeeded_xo256 : (r.markSeeded b).xo256 = r.xo256 := rfl
@[simp] theorem Arch.markSeeded_sm64 : (r.markSeeded b).sm64 = r.sm64 := rfl
@[simp] theorem Arch.markSeeded_mb32 : (r.markSeeded b).mb32 = r.mb32 := rfl
@[simp] theorem Arch.markSeeded_range : (r.markSeeded b).range = r.range := rfl
@[simp] theorem Arch.markSeeded_src : (r.markSeeded b).src = r.src := rfl
@[simp] theorem Arch.markSeeded_var : (r.markSeeded b).var = r.var := rfl
@[simp] theorem Arch.markSeeded_svalid : (r.markSeeded b).svalid = r.svalid := rfl
@[simp] theorem Arch.markSeeded_words (b' : Bank) : (r.markSeeded b).words b' = r.words b' := by
  cases b' <;> rfl

/-- Setting one bank's flag sets it and leaves the other seven. -/
@[simp] theorem Arch.markSeeded_isSeeded (b' : Bank) :
    (r.markSeeded b).isSeeded b' = (r.isSeeded b' || b == b') := by
  cases b <;> cases b' <;> simp [Arch.markSeeded, Arch.isSeeded, bankCode]

end

end Sys2Proof.Machine
end

