-- ==== Sys2Proof/Laws/Ops.lean ====
section
/-! SUPPORT. What each shared operation can do, said once: completing, failing, the common parts of SEED and NEXT, the
banks' transitions, the sampler's draw, and what the block takes from the host. Proofs cite these instead of unfolding. -/

namespace Sys2Proof.Machine

/-! ### Completing and failing -/

@[simp] theorem complete_eq (r : Arch) (v : W64) (s : State) : complete r v s = .next (s.completed r v) := rfl

@[simp] theorem fail_eq (st : Status) (s : State) : fail st s = .next (s.failed st) := rfl

theorem performedWith_complete (r : Arch) (v : W64) (s : State) : PerformedWith r v s (complete r v s) := rfl

theorem performedWith_iff {r : Arch} {v : W64} {s : State} {o : Out} :
    PerformedWith r v s o ↔ o = .next (s.completed r v) := Iff.rfl

theorem failsWith_fail (st : Status) (s : State) : FailsWith st s (fail st s) := ⟨_, rfl⟩

/-! ### SEED and NEXT, common parts -/

theorem seedBank_zero {b : Bank} {zero : Bool} {w : Arch} {s : State} (h : zero = true) :
    seedBank b zero w s = .next (s.failed .zeroSeed) := by simp [seedBank, h]

theorem seedBank_nonzero {b : Bank} {zero : Bool} {w : Arch} {s : State} (h : zero = false) :
    seedBank b zero w s = .next (s.completed (w.markSeeded b) 0) := by simp [seedBank, h]

/-- All that SEED can do. -/
theorem seedBank_cases {b : Bank} {zero : Bool} {w : Arch} {s t : State} (h : seedBank b zero w s = .next t) :
    (zero = true ∧ t = s.failed .zeroSeed) ∨ (zero = false ∧ t = s.completed (w.markSeeded b) 0) := by
  cases zero <;> simp_all [seedBank]

theorem nextBank_seeded {b : Bank} {r : Arch} {v : W64} {s : State} (h : s.arch.isSeeded b = true) :
    nextBank b r v s = .next (s.completed r v) := by simp [nextBank, h]

theorem nextBank_empty {b : Bank} {r : Arch} {v : W64} {s : State} (h : s.arch.isSeeded b = false) :
    nextBank b r v s = .next (s.failed .notSeeded) := by simp [nextBank, h]

/-- All that NEXT can do. -/
theorem nextBank_cases {b : Bank} {r : Arch} {v : W64} {s t : State} (h : nextBank b r v s = .next t) :
    (s.arch.isSeeded b = true ∧ t = s.completed r v) ∨
    (s.arch.isSeeded b = false ∧ t = s.failed .notSeeded) := by
  cases hb : s.arch.isSeeded b <;> simp_all [nextBank]

/-! ### Transitions: the control registers and the other banks stay -/

section
variable (r : Arch)

@[simp] theorem advanceXs32_control : (advanceXs32 r).1.SameControl r := by
  simp [Arch.SameControl, advanceXs32]
@[simp] theorem advanceXs64_control : (advanceXs64 r).1.SameControl r := by
  simp [Arch.SameControl, advanceXs64]
@[simp] theorem advanceXs128_control : (advanceXs128 r).1.SameControl r := by
  simp [Arch.SameControl, advanceXs128]
@[simp] theorem advanceXsp_control : (advanceXsp r).1.SameControl r := by
  simp [Arch.SameControl, advanceXsp]
@[simp] theorem advanceXo128_control : (advanceXo128 r).1.SameControl r := by
  simp [Arch.SameControl, advanceXo128]
@[simp] theorem advanceXo256_control : (advanceXo256 r).1.SameControl r := by
  simp [Arch.SameControl, advanceXo256]
@[simp] theorem advanceSm64_control : (advanceSm64 r).1.SameControl r := by
  simp [Arch.SameControl, advanceSm64]
@[simp] theorem advanceMb32_control : (advanceMb32 r).1.SameControl r := by
  simp [Arch.SameControl, advanceMb32]

end

/-- A draw leaves the flags and the sampler's registers. -/
theorem draw32_control (src : Source) (r : Arch) : (draw32 src r).1.SameControl r := by
  cases src
  · exact advanceXs32_control r
  · exact advanceXs128_control r
  · exact advanceXo128_control r
  · exact advanceMb32_control r

@[simp] theorem draw32_gvalid (src : Source) (r : Arch) : (draw32 src r).1.gvalid = r.gvalid :=
  (draw32_control src r).1
@[simp] theorem draw32_range (src : Source) (r : Arch) : (draw32 src r).1.range = r.range :=
  (draw32_control src r).2.1
@[simp] theorem draw32_src (src : Source) (r : Arch) : (draw32 src r).1.src = r.src :=
  (draw32_control src r).2.2.1
@[simp] theorem draw32_var (src : Source) (r : Arch) : (draw32 src r).1.var = r.var :=
  (draw32_control src r).2.2.2.1
@[simp] theorem draw32_svalid (src : Source) (r : Arch) : (draw32 src r).1.svalid = r.svalid :=
  (draw32_control src r).2.2.2.2

/-- The flags depend on GVALID alone. -/
theorem isSeeded_congr {r u : Arch} (h : r.gvalid = u.gvalid) (b : Bank) : r.isSeeded b = u.isSeeded b := by
  simp [Arch.isSeeded, h]

@[simp] theorem draw32_isSeeded (src : Source) (r : Arch) (b : Bank) :
    (draw32 src r).1.isSeeded b = r.isSeeded b := isSeeded_congr (draw32_gvalid src r) b

/-- A draw leaves every bank but the one it draws from. -/
theorem draw32_words_ne (src : Source) (r : Arch) (b : Bank) (h : b ≠ src.bank) :
    (draw32 src r).1.words b = r.words b := by
  cases src <;> cases b <;>
    first
    | exact absurd rfl h
    | simp [draw32, advanceXs32, advanceXs128, advanceXo128, advanceMb32, Arch.words]

/-- A draw reads the bank it draws from and nothing else: banks that hold the same words give the same output and are left
with the same words. -/
theorem draw32_congr (src : Source) {r u : Arch} (h : r.words src.bank = u.words src.bank) :
    (draw32 src r).2 = (draw32 src u).2 ∧
    (draw32 src r).1.words src.bank = (draw32 src u).1.words src.bank := by
  have inj : ∀ {x y : W32}, zext64 x = zext64 y → x = y := by
    intro x y e
    have := congrArg (BitVec.setWidth 32) e
    simpa [zext64] using this
  cases src
  · have e : r.xs32 = u.xs32 := by
      simp only [Source.bank, Arch.words, List.cons.injEq, and_true] at h; exact inj h
    simp [draw32, advanceXs32, Source.bank, Arch.words, e]
  · have e : r.xs128 = u.xs128 := by
      simp only [Source.bank, Arch.words, List.cons.injEq, and_true] at h
      obtain ⟨h1, h2, h3, h4⟩ := h
      cases hr : r.xs128; cases hu : u.xs128
      simp only [hr, hu] at h1 h2 h3 h4
      simp [inj h1, inj h2, inj h3, inj h4]
    simp [draw32, advanceXs128, Source.bank, Arch.words, e]
  · have e : r.xo128 = u.xo128 := by
      simp only [Source.bank, Arch.words, List.cons.injEq, and_true] at h
      obtain ⟨h1, h2, h3, h4⟩ := h
      cases hr : r.xo128; cases hu : u.xo128
      simp only [hr, hu] at h1 h2 h3 h4
      simp [inj h1, inj h2, inj h3, inj h4]
    simp [draw32, advanceXo128, Source.bank, Arch.words, e]
  · have e : r.mb32 = u.mb32 := by
      simp only [Source.bank, Arch.words, List.cons.injEq, and_true] at h; exact inj h
    simp [draw32, advanceMb32, Source.bank, Arch.words, e]

/-! ### The sampler's commands -/

/-- All that SCFG can do with a legal source. -/
theorem execScfg_bank (src : Source) (var : Variant) (s : State) :
    execScfg src.bank var s =
      if s.arch.isSeeded src.bank then
        if low32 s.ports.a = 0 then .next (s.failed .zeroRange)
        else .next (s.completed
          { s.arch with range := low32 s.ports.a, src := src, var := var, svalid := true } 0)
      else .next (s.failed .notSeeded) := by
  cases src <;> rfl

/-- All that NEXTB's first step can do. -/
theorem execNextb_cases {s t : State} (h : execNextb s = .next t) :
    (s.arch.svalid = false ∧ t = s.failed .noSampler) ∨
    (s.arch.svalid = true ∧
      ((low32 (product (draw32 s.arch.src s.arch).2 s.arch.range) < s.arch.range ∧
          low32 (product (draw32 s.arch.src s.arch).2 s.arch.range) < threshold s.arch.var s.arch.range ∧
          t = s.rejected (threshold s.arch.var s.arch.range) (draw32 s.arch.src s.arch).1) ∨
        (¬(low32 (product (draw32 s.arch.src s.arch).2 s.arch.range) < s.arch.range ∧
            low32 (product (draw32 s.arch.src s.arch).2 s.arch.range) < threshold s.arch.var s.arch.range) ∧
          t = s.completed (draw32 s.arch.src s.arch).1
            (zext64 (high32 (product (draw32 s.arch.src s.arch).2 s.arch.range)))))) := by
  unfold execNextb at h
  cases hv : s.arch.svalid
  · simp only [hv, Bool.false_eq_true, if_false, fail_eq, Host.Outcome.next.injEq] at h
    exact .inl ⟨rfl, h.symm⟩
  · simp only [hv, if_true] at h
    refine .inr ⟨rfl, ?_⟩
    split at h
    · next hc => exact .inl ⟨hc.1, hc.2, (Host.Outcome.next.inj h).symm⟩
    · next hc => exact .inr ⟨hc, (Host.Outcome.next.inj h).symm⟩

/-- All that a turn of NEXTB's loop can do. -/
theorem redraw_cases {limit : W32} {s t : State} (h : redraw limit s = .next t) :
    (low32 (product (draw32 s.arch.src s.arch).2 s.arch.range) < limit ∧
      t = s.rejected limit (draw32 s.arch.src s.arch).1) ∨
    (¬ low32 (product (draw32 s.arch.src s.arch).2 s.arch.range) < limit ∧
      t = s.completed (draw32 s.arch.src s.arch).1
        (zext64 (high32 (product (draw32 s.arch.src s.arch).2 s.arch.range)))) := by
  unfold redraw at h
  simp only at h
  split at h
  · next hc => exact .inl ⟨hc, (Host.Outcome.next.inj h).symm⟩
  · next hc => exact .inr ⟨hc, (Host.Outcome.next.inj h).symm⟩

theorem redraw_next (limit : W32) (s : State) : ∃ t, redraw limit s = .next t := by
  unfold redraw
  simp only
  split
  · exact ⟨_, rfl⟩
  · exact ⟨_, rfl⟩

/-! ### What the block takes from the host -/

theorem nextWork_idle_command {s : State} {cmd : W8} {ports : Ports} {rest : List HostEvent}
    (hp : s.phase = .idle) (hh : s.host = .command cmd ports :: rest) :
    nextWork s = .accept cmd { s with host := rest, ports := ports } := by
  unfold nextWork; rw [hh]; simp only; rw [hp]

theorem nextWork_busy_command {s : State} {cmd : W8} {ports : Ports} {rest : List HostEvent} {t : W32}
    (hp : s.phase = .rejecting t) (hh : s.host = .command cmd ports :: rest) :
    nextWork s = .redraw t s := by
  unfold nextWork; rw [hh]; simp only; rw [hp]

theorem nextWork_rst {s : State} {rest : List HostEvent} (hh : s.host = .rst :: rest) :
    nextWork s = .reset { s with host := rest } := by
  unfold nextWork; rw [hh]

theorem nextWork_busy_empty {s : State} {t : W32} (hp : s.phase = .rejecting t) (hh : s.host = []) :
    nextWork s = .redraw t s := by
  unfold nextWork ongoing; rw [hh]; simp only; rw [hp]

theorem nextWork_idle_empty {s : State} (hp : s.phase = .idle) (hh : s.host = []) : nextWork s = .idle s := by
  unfold nextWork ongoing; rw [hh]; simp only; rw [hp]

theorem nextWork_idle_wait {s : State} {rest : List HostEvent} (hp : s.phase = .idle) (hh : s.host = .wait :: rest) :
    nextWork s = .idle { s with host := rest } := by
  unfold nextWork ongoing; rw [hh]; simp only; rw [hp]

/-- A busy block goes on with NEXTB unless the host asserts a reset. -/
theorem nextWork_busy {s : State} {t : W32} (hp : s.phase = .rejecting t) (hh : ∀ rest, s.host ≠ .rst :: rest) :
    nextWork s = .redraw t { s with host := afterWait s.host } := by
  obtain ⟨arch, ports, phase, completion, host, freeCount⟩ := s
  subst hp
  cases host with
  | nil => rfl
  | cons e rest =>
    cases e with
    | rst => exact absurd rfl (hh rest)
    | wait => rfl
    | command _ _ => rfl

/-- All that the block can take. -/
theorem nextWork_cases (s : State) :
    (∃ rest, s.host = .rst :: rest ∧ nextWork s = .reset { s with host := rest }) ∨
    (∃ cmd ports rest, s.phase = .idle ∧ s.host = .command cmd ports :: rest ∧
      nextWork s = .accept cmd { s with host := rest, ports := ports }) ∨
    (∃ t rest, s.phase = .rejecting t ∧ (s.host = rest ∨ s.host = .wait :: rest) ∧
      nextWork s = .redraw t { s with host := rest }) ∨
    (∃ rest, s.phase = .idle ∧ nextWork s = .idle { s with host := rest }) := by
  obtain ⟨arch, ports, phase, completion, host, freeCount⟩ := s
  cases host with
  | nil =>
    cases phase with
    | idle => exact .inr (.inr (.inr ⟨[], rfl, rfl⟩))
    | rejecting t => exact .inr (.inr (.inl ⟨t, [], rfl, .inl rfl, rfl⟩))
  | cons e rest =>
    cases e with
    | rst => exact .inl ⟨rest, rfl, rfl⟩
    | wait =>
      cases phase with
      | idle => exact .inr (.inr (.inr ⟨rest, rfl, rfl⟩))
      | rejecting t => exact .inr (.inr (.inl ⟨t, rest, rfl, .inr rfl, rfl⟩))
    | command cmd cmdPorts =>
      cases phase with
      | idle => exact .inr (.inl ⟨cmd, cmdPorts, rest, rfl, rfl, rfl⟩)
      | rejecting t => exact .inr (.inr (.inl ⟨t, _, rfl, .inl rfl, rfl⟩))

end Sys2Proof.Machine
end

