-- ==== Sys2Proof/Laws/Exec.lean ====
section
/-! SUPPORT. What a command and a step can do, said once: `exec_cases` and `step_cases`. -/

namespace Sys2Proof.Machine

/-- The architectural state a command leaves when it is performed (for NEXTB: after its first draw). -/
def performed (i : Instr) (s : State) : Arch :=
  let p := s.ports
  match i with
  | .seedXs32 => { s.arch with xs32 := low32 p.a }.markSeeded .xs32
  | .seedXs64 => { s.arch with xs64 := p.a }.markSeeded .xs64
  | .seedXs128 =>
    { s.arch with xs128 := { x := low32 p.a, y := low32 p.b, z := low32 p.c, w := low32 p.d } }.markSeeded .xs128
  | .seedXsp => { s.arch with xsp := { s0 := p.a, s1 := p.b } }.markSeeded .xsp
  | .seedXo128 =>
    { s.arch with xo128 := { s0 := low32 p.a, s1 := low32 p.b, s2 := low32 p.c, s3 := low32 p.d } }.markSeeded .xo128
  | .seedXo256 => { s.arch with xo256 := { s0 := p.a, s1 := p.b, s2 := p.c, s3 := p.d } }.markSeeded .xo256
  | .seedSm64 => { s.arch with sm64 := p.a }.markSeeded .sm64
  | .seedMb32 => { s.arch with mb32 := low32 p.a }.markSeeded .mb32
  | .nextXs32 => (advanceXs32 s.arch).1
  | .nextXs64 => (advanceXs64 s.arch).1
  | .nextXs128 => (advanceXs128 s.arch).1
  | .nextXsp => (advanceXsp s.arch).1
  | .nextXo128 => (advanceXo128 s.arch).1
  | .nextXo256 => (advanceXo256 s.arch).1
  | .nextSm64 => (advanceSm64 s.arch).1
  | .nextMb32 => (advanceMb32 s.arch).1
  | .scfg src var =>
    match src.source? with
    | some source => { s.arch with range := low32 p.a, src := source, var := var, svalid := true }
    | none => s.arch
  | .nextb => (draw32 s.arch.src s.arch).1
  | .cvtMul | .cvtBitcast | .cvtD32 | .cvtD52 | .stat => s.arch

/-- When a command is performed rather than refused (60_exceptions.md R202). -/
def Ready (i : Instr) (s : State) : Prop :=
  let p := s.ports
  match i with
  | .seedXs32 | .seedMb32 => low32 p.a ≠ 0
  | .seedXs64 | .seedSm64 => p.a ≠ 0
  | .seedXsp => ¬(p.a = 0 ∧ p.b = 0)
  | .seedXs128 | .seedXo128 => ¬(low32 p.a = 0 ∧ low32 p.b = 0 ∧ low32 p.c = 0 ∧ low32 p.d = 0)
  | .seedXo256 => ¬(p.a = 0 ∧ p.b = 0 ∧ p.c = 0 ∧ p.d = 0)
  | .nextXs32 => s.arch.isSeeded .xs32 = true
  | .nextXs64 => s.arch.isSeeded .xs64 = true
  | .nextXs128 => s.arch.isSeeded .xs128 = true
  | .nextXsp => s.arch.isSeeded .xsp = true
  | .nextXo128 => s.arch.isSeeded .xo128 = true
  | .nextXo256 => s.arch.isSeeded .xo256 = true
  | .nextSm64 => s.arch.isSeeded .sm64 = true
  | .nextMb32 => s.arch.isSeeded .mb32 = true
  | .scfg src _ => src.source?.isSome = true ∧ s.arch.isSeeded src = true ∧ low32 p.a ≠ 0
  | .nextb => s.arch.svalid = true
  | .cvtMul | .cvtBitcast | .cvtD32 | .cvtD52 | .stat => True

/-- All that a command can do: fail, leaving everything but the completion; be performed to its completion; or, for NEXTB,
have its first draw rejected. -/
theorem exec_cases {i : Instr} {s t : State} (h : exec i s = .next t) :
    (∃ st, st ≠ .ok ∧ t = s.failed st ∧ ¬ Ready i s) ∨
    (Ready i s ∧ ∃ r, t = s.completed (performed i s) r) ∨
    (Ready i s ∧ i = .nextb ∧ t = s.rejected (threshold s.arch.var s.arch.range) (performed i s)) := by
  have seed : ∀ {b : Bank} {zero : Bool} {w : Arch}, seedBank b zero w s = .next t →
      (zero = false ↔ Ready i s) → performed i s = w.markSeeded b →
      (∃ st, st ≠ .ok ∧ t = s.failed st ∧ ¬ Ready i s) ∨
      (Ready i s ∧ ∃ r, t = s.completed (performed i s) r) := by
    intro b zero w hs hr hp
    rcases seedBank_cases hs with ⟨hz, ht⟩ | ⟨hz, ht⟩
    · exact .inl ⟨.zeroSeed, by decide, ht, by rw [← hr, hz]; decide⟩
    · exact .inr ⟨hr.mp hz, 0, by rw [hp]; exact ht⟩
  have next : ∀ {b : Bank} {w : Arch} {v : W64}, nextBank b w v s = .next t →
      (s.arch.isSeeded b = true ↔ Ready i s) → performed i s = w →
      (∃ st, st ≠ .ok ∧ t = s.failed st ∧ ¬ Ready i s) ∨
      (Ready i s ∧ ∃ r, t = s.completed (performed i s) r) := by
    intro b w v hs hr hp
    rcases nextBank_cases hs with ⟨hb, ht⟩ | ⟨hb, ht⟩
    · exact .inr ⟨hr.mp hb, v, by rw [hp]; exact ht⟩
    · exact .inl ⟨.notSeeded, by decide, ht, by rw [← hr, hb]; decide⟩
  have widen : ∀ {p q r : Prop}, p ∨ q → p ∨ q ∨ r := fun h => h.elim .inl (.inr ∘ .inl)
  have pure : ∀ {v : W64}, complete s.arch v s = .next t → Ready i s → performed i s = s.arch →
      Ready i s ∧ ∃ r, t = s.completed (performed i s) r := by
    intro v hc hr hp
    exact ⟨hr, v, by rw [hp]; exact (Host.Outcome.next.inj hc).symm⟩
  cases i with
  | seedXs32 => exact widen (seed h (by simp [Ready]) rfl)
  | seedXs64 => exact widen (seed h (by simp [Ready]) rfl)
  | seedXs128 => exact widen (seed h (by simp [Ready]) rfl)
  | seedXsp => exact widen (seed h (by simp [Ready]) rfl)
  | seedXo128 => exact widen (seed h (by simp [Ready]) rfl)
  | seedXo256 => exact widen (seed h (by simp [Ready]) rfl)
  | seedSm64 => exact widen (seed h (by simp [Ready]) rfl)
  | seedMb32 => exact widen (seed h (by simp [Ready]) rfl)
  | nextXs32 => exact widen (next h Iff.rfl rfl)
  | nextXs64 => exact widen (next h Iff.rfl rfl)
  | nextXs128 => exact widen (next h Iff.rfl rfl)
  | nextXsp => exact widen (next h Iff.rfl rfl)
  | nextXo128 => exact widen (next h Iff.rfl rfl)
  | nextXo256 => exact widen (next h Iff.rfl rfl)
  | nextSm64 => exact widen (next h Iff.rfl rfl)
  | nextMb32 => exact widen (next h Iff.rfl rfl)
  | scfg src var =>
    change execScfg src var s = .next t at h
    unfold execScfg at h
    cases hsrc : src.source? with
    | none =>
      rw [hsrc] at h
      exact .inl ⟨.illegalCmd, by decide, (Host.Outcome.next.inj h).symm, by simp [Ready, hsrc]⟩
    | some source =>
      rw [hsrc] at h
      simp only at h
      split at h
      · next hb =>
        split at h
        · next hz => exact .inl ⟨.zeroRange, by decide, (Host.Outcome.next.inj h).symm, by simp [Ready, hz]⟩
        · next hz =>
          refine .inr (.inl ⟨⟨by simp [hsrc], hb, hz⟩, 0, ?_⟩)
          simp only [performed, hsrc]
          exact (Host.Outcome.next.inj h).symm
      · next hb => exact .inl ⟨.notSeeded, by decide, (Host.Outcome.next.inj h).symm, by simp [Ready, hb]⟩
  | nextb =>
    rcases execNextb_cases h with ⟨hv, ht⟩ | ⟨hv, ⟨_, _, ht⟩ | ⟨_, ht⟩⟩
    · exact .inl ⟨.noSampler, by decide, ht, by simp [Ready, hv]⟩
    · exact .inr (.inr ⟨hv, rfl, ht⟩)
    · exact .inr (.inl ⟨hv, _, ht⟩)
  | cvtMul => exact .inr (.inl (pure h trivial rfl))
  | cvtBitcast => exact .inr (.inl (pure h trivial rfl))
  | cvtD32 => exact .inr (.inl (pure h trivial rfl))
  | cvtD52 => exact .inr (.inl (pure h trivial rfl))
  | stat => exact .inr (.inl (pure h trivial rfl))

/-- A command that fails or is not NEXTB ends idle: it has completed. -/
theorem exec_completes {i : Instr} {s t : State} (h : exec i s = .next t) (hi : i ≠ .nextb) :
    t.phase = .idle ∧ t.completion ≠ none := by
  rcases exec_cases h with ⟨st, _, rfl, _⟩ | ⟨_, r, rfl⟩ | ⟨_, rfl, _⟩
  · exact ⟨rfl, by simp⟩
  · exact ⟨rfl, by simp⟩
  · exact absurd rfl hi

/-- All that a step can do. -/
theorem step_cases {s t : State} (h : step s = .next t) :
    (∃ rest, s.host = .rst :: rest ∧ t = { s with host := rest }.resetNow) ∨
    (∃ cmd ports rest i, s.phase = .idle ∧ s.host = .command cmd ports :: rest ∧ decode cmd = .ok i ∧
      exec i { s with host := rest, ports := ports } = .next t) ∨
    (∃ cmd ports rest e, s.phase = .idle ∧ s.host = .command cmd ports :: rest ∧ decode cmd = .error e ∧
      t = { s with host := rest, ports := ports }.failed .illegalCmd) ∨
    (∃ limit rest, s.phase = .rejecting limit ∧ (s.host = rest ∨ s.host = .wait :: rest) ∧
      redraw limit { s with host := rest } = .next t) ∨
    (∃ rest, s.phase = .idle ∧ t = { s with host := rest }.idled) := by
  unfold step at h
  rcases nextWork_cases s with ⟨rest, hh, hw⟩ | ⟨cmd, ports, rest, hp, hh, hw⟩ | ⟨limit, rest, hp, hh, hw⟩ |
    ⟨rest, hp, hw⟩
  · rw [hw] at h
    exact .inl ⟨rest, hh, (Host.Outcome.next.inj h).symm⟩
  · rw [hw] at h
    cases hd : decode cmd with
    | ok i => simp only [hd] at h; exact .inr (.inl ⟨cmd, ports, rest, i, hp, hh, hd, h⟩)
    | error e =>
      simp only [hd] at h
      exact .inr (.inr (.inl ⟨cmd, ports, rest, e, hp, hh, hd, (Host.Outcome.next.inj h).symm⟩))
  · rw [hw] at h
    exact .inr (.inr (.inr (.inl ⟨limit, rest, hp, hh, h⟩)))
  · rw [hw] at h
    exact .inr (.inr (.inr (.inr ⟨rest, hp, (Host.Outcome.next.inj h).symm⟩)))

@[simp] theorem runFor_zero (s : State) : runFor 0 s = .next s := rfl

/-- A step, then the rest of the run. -/
theorem runFor_next {s t : State} (n : Nat) (h : step s = .next t) : runFor (n + 1) s = runFor n t := by
  simp only [runFor, h]

end Sys2Proof.Machine
end

