-- ==== Sys2Proof/Laws/Float.lean ====
section
/-! SUPPORT. Binary64 on values it represents exactly: every operation on integers below `2^53`, scaled by a power of two,
is exact as long as its result is one again. `dyadic i e` is the pattern of `i * 2^e`. -/

namespace Sys2Proof.Machine

/-- The pattern of `i * 2^e`. -/
def dyadic (i e : Int) : W64 := roundPattern (decide (i < 0)) i.natAbs e

theorem log2_lt_53 {m : Nat} (hm : m < 2 ^ 53) : Nat.log2 m ≤ 52 := by
  by_cases h0 : m = 0
  · subst h0; decide
  · exact Nat.le_of_lt_succ ((Nat.log2_lt h0).mpr hm)

theorem log2_mul_two_pow {m : Nat} (h : m ≠ 0) (k : Nat) : Nat.log2 (m * 2 ^ k) = Nat.log2 m + k := by
  induction k with
  | zero => simp
  | succ k ih =>
    rw [pow_succ, ← Nat.mul_assoc, Nat.mul_comm _ 2, Nat.log2_two_mul (by positivity), ih]
    omega

theorem quantum_scale {m : Nat} (h : m ≠ 0) (e : Int) (k : Nat) : quantum (m * 2 ^ k) (e - k) = quantum m e := by
  simp only [quantum, log2_mul_two_pow h]
  congr 1
  push_cast
  ring

theorem quantum_le {m : Nat} {e : Int} (hm : m < 2 ^ 53) (he : -1074 ≤ e) : quantum m e ≤ e := by
  have := log2_lt_53 hm
  unfold quantum
  omega

/-- Shifting out zeros rounds nothing. -/
theorem shiftRoundEven_exact (a k : Nat) : shiftRoundEven (a * 2 ^ k) k = a := by
  have hp : 0 < 2 ^ k := by positivity
  unfold shiftRoundEven
  simp only [Nat.mul_div_cancel _ hp, Nat.mul_mod_left]
  rw [if_neg (by omega)]

theorem significand_scale {m : Nat} {e : Int} (h : m ≠ 0) (hm : m < 2 ^ 53) (he : -1074 ≤ e) (k : Nat) :
    significand (m * 2 ^ k) (e - k) = significand m e := by
  have hq := quantum_le hm he
  unfold significand
  rw [quantum_scale h]
  simp only [hq, if_true]
  generalize quantum m e = q at hq
  split
  · next h1 =>
    rw [Nat.mul_assoc, ← pow_add]
    congr 2
    omega
  · next h1 =>
    have : m * 2 ^ k = (m * 2 ^ (e - q).toNat) * 2 ^ (q - (e - k)).toNat := by
      rw [Nat.mul_assoc, ← pow_add]
      congr 2
      omega
    rw [this, shiftRoundEven_exact]

/-- The pattern depends on the value only: a significand may be scaled up against its exponent. -/
theorem roundPattern_scale {m : Nat} {e : Int} (hm : m < 2 ^ 53) (he : -1074 ≤ e) (neg : Bool) (k : Nat) :
    roundPattern neg (m * 2 ^ k) (e - k) = roundPattern neg m e := by
  by_cases h : m = 0
  · subst h; simp [roundPattern, magnitudeBits]
  · have h' : m * 2 ^ k ≠ 0 := by positivity
    simp only [roundPattern, magnitudeBits, h, h', if_false, quantum_scale h, significand_scale h hm he]

theorem dyadic_scale {i e : Int} (hi : i.natAbs < 2 ^ 53) (he : -1074 ≤ e) (k : Nat) :
    dyadic (i * 2 ^ k) (e - k) = dyadic i e := by
  have hs : (i * 2 ^ k < 0) ↔ i < 0 := by
    have : (0 : Int) < 2 ^ k := by positivity
    constructor
    · intro h; by_contra hc; exact absurd h (by have := mul_nonneg (not_lt.mp hc) this.le; omega)
    · intro h; exact mul_neg_of_neg_of_pos h this
  have ha : (i * 2 ^ k).natAbs = i.natAbs * 2 ^ k := by
    rw [Int.natAbs_mul, Int.natAbs_pow]; rfl
  unfold dyadic
  rw [ha, roundPattern_scale hi he]
  simp only [hs]

/-- Reading back the fields of a pattern. -/
theorem f64FromBits_fields (neg : Bool) {expo frac : Nat} (he : expo < 0x7FF) (hf : frac < 2 ^ 52) :
    f64FromBits (signedPattern neg (expo * 2 ^ 52 + frac)) =
      if expo = 0 then .fin neg frac (-1074) else .fin neg (2 ^ 52 + frac) ((expo : Int) - 1075) := by
  have hsign : (signedPattern neg (expo * 2 ^ 52 + frac)).getLsbD 63 = neg := by
    rw [BitVec.getLsbD, signedPattern, BitVec.toNat_ofNat, Nat.testBit_eq_decide_div_mod_eq]
    cases neg
    · simp only [Bool.false_eq_true, if_false, decide_eq_false_iff_not]; omega
    · simp only [if_true, decide_eq_true_eq]; omega
  have hexpo : ((signedPattern neg (expo * 2 ^ 52 + frac)).extractLsb' 52 11).toNat = expo := by
    rw [BitVec.extractLsb'_toNat, signedPattern, BitVec.toNat_ofNat, Nat.shiftRight_eq_div_pow]
    cases neg
    · simp only [Bool.false_eq_true, if_false]; omega
    · simp only [if_true]; omega
  have hfrac : ((signedPattern neg (expo * 2 ^ 52 + frac)).extractLsb' 0 52).toNat = frac := by
    rw [BitVec.extractLsb'_toNat, signedPattern, BitVec.toNat_ofNat, Nat.shiftRight_eq_div_pow]
    cases neg
    · simp only [Bool.false_eq_true, if_false]; omega
    · simp only [if_true]; omega
  unfold f64FromBits
  simp only [hsign, hexpo, hfrac]
  rw [if_neg (by omega)]

/-- The 63 bits of a normal number: exponent field and fraction. -/
theorem magnitudeBits_normal {m : Nat} {e : Int} (h : m ≠ 0) (hm : m < 2 ^ 53) (hlo : -1022 ≤ e) (hhi : e ≤ 900) :
    magnitudeBits m e =
      ((Nat.log2 m : Int) + e + 1023).toNat * 2 ^ 52 + (m * 2 ^ (52 - Nat.log2 m) - 2 ^ 52) ∧
    2 ^ 52 ≤ m * 2 ^ (52 - Nat.log2 m) ∧ m * 2 ^ (52 - Nat.log2 m) < 2 ^ 53 := by
  have hp := log2_lt_53 hm
  have hlog := log2_mul_two_pow h (52 - Nat.log2 m)
  have h' : m * 2 ^ (52 - Nat.log2 m) ≠ 0 := by positivity
  have hlow : 2 ^ 52 ≤ m * 2 ^ (52 - Nat.log2 m) := by
    have := Nat.log2_self_le h'
    rwa [hlog, show Nat.log2 m + (52 - Nat.log2 m) = 52 by omega] at this
  have hhigh : m * 2 ^ (52 - Nat.log2 m) < 2 ^ 53 := by
    have := (Nat.log2_lt (k := 53) h').mp (by omega)
    exact this
  refine ⟨?_, hlow, hhigh⟩
  have hq : quantum m e = max ((Nat.log2 m : Int) + e - 52) (-1074) := rfl
  have hqe := quantum_le hm (by omega : -1074 ≤ e)
  rw [max_eq_left (by omega)] at hq
  have hs : significand m e = m * 2 ^ (52 - Nat.log2 m) := by
    unfold significand
    simp only [hqe, if_true]
    rw [hq]
    congr 2
    omega
  obtain ⟨b, hb⟩ : ∃ b : Nat, ((Nat.log2 m : Int) + e + 1023).toNat = b + 1 ∧ b + 1 ≤ 1975 :=
    ⟨((Nat.log2 m : Int) + e + 1022).toNat, by omega, by omega⟩
  obtain ⟨f, hf⟩ : ∃ f, m * 2 ^ (52 - Nat.log2 m) = 2 ^ 52 + f := ⟨_, (Nat.add_sub_cancel' hlow).symm⟩
  have hexp : ((Nat.log2 m : Int) + e - 52 + 1074).toNat = b := by omega
  have hlt : b * 2 ^ 52 + (2 ^ 52 + f) ≤ 0x7FF * 2 ^ 52 := by
    calc b * 2 ^ 52 + (2 ^ 52 + f) ≤ 1974 * 2 ^ 52 + 2 ^ 53 :=
          Nat.add_le_add (Nat.mul_le_mul_right _ (by omega)) (hf ▸ hhigh.le)
      _ ≤ 0x7FF * 2 ^ 52 := by norm_num
  unfold magnitudeBits
  rw [if_neg h, hs, hq, hexp, hb.1, hf, min_eq_left hlt, Nat.add_sub_cancel_left]
  ring

/-- Reading back `i * 2^e`: its sign, and its magnitude scaled up by some power of two. -/
theorem f64FromBits_dyadic {i e : Int} (hi : i.natAbs < 2 ^ 53) (hlo : -1022 ≤ e) (hhi : e ≤ 900) :
    ∃ k : Nat, f64FromBits (dyadic i e) = .fin (decide (i < 0)) (i.natAbs * 2 ^ k) (e - k) := by
  by_cases h : i.natAbs = 0
  · have hz : magnitudeBits i.natAbs e = 0 * 2 ^ 52 + 0 := by simp [magnitudeBits, h]
    refine ⟨(e + 1074).toNat, ?_⟩
    unfold dyadic roundPattern
    rw [hz, f64FromBits_fields _ (by omega) (by omega), if_pos rfl, h]
    congr 1
    · omega
    · omega
  · obtain ⟨hb, hlow, hhigh⟩ := magnitudeBits_normal h hi hlo hhi
    have hp := log2_lt_53 hi
    refine ⟨52 - Nat.log2 i.natAbs, ?_⟩
    unfold dyadic roundPattern
    rw [hb]
    generalize i.natAbs * 2 ^ (52 - Nat.log2 i.natAbs) = mant at hlow hhigh
    have hx : ((((Nat.log2 i.natAbs : Int) + e + 1023).toNat : Nat) : Int) - 1075 =
        e - ((52 - Nat.log2 i.natAbs : Nat) : Int) := by omega
    rw [f64FromBits_fields _ (by omega) (by omega), if_neg (by omega), Nat.add_sub_cancel' hlow, hx]

/-- `exact_f64` is the pattern of `n * 2^-e` (R101). -/
theorem exactF64_eq_dyadic {n e : Nat} (hn : n < 2 ^ 53) (he : e ≤ 64) : exactF64 n e = dyadic n (-e) := by
  by_cases h : n = 0
  · subst h; rfl
  · obtain ⟨hb, hlow, hhigh⟩ := magnitudeBits_normal (e := -(e : Int)) h hn (by omega) (by omega)
    have hp := log2_lt_53 hn
    have hneg : decide ((n : Int) < 0) = false := by simp
    have hmod : n * 2 ^ (52 - Nat.log2 n) % 2 ^ 52 = n * 2 ^ (52 - Nat.log2 n) - 2 ^ 52 := by
      generalize n * 2 ^ (52 - Nat.log2 n) = mant at hlow hhigh
      omega
    unfold exactF64 dyadic roundPattern signedPattern
    have hx : ((Nat.log2 n : Int) + -(e : Int) + 1023).toNat = 1023 + Nat.log2 n - e := by omega
    simp only [h, if_false, hneg, Int.natAbs_natCast, Bool.false_eq_true, hb, hmod, hx, Nat.zero_add]

theorem intToF64_eq_dyadic (i : Int) : intToF64 i = dyadic i 0 := rfl

theorem natAbs_scaled (neg : Bool) (m k : Nat) (e low : Int) (h : low ≤ e - k) :
    scaled neg (m * 2 ^ k) (e - k) low = (if neg then -(m : Int) else m) * 2 ^ (e - low).toNat := by
  have hk : m * 2 ^ k * 2 ^ (e - k - low).toNat = m * 2 ^ (e - low).toNat := by
    rw [Nat.mul_assoc, ← pow_add]
    congr 2
    omega
  unfold scaled
  rw [hk]
  cases neg <;> simp

/-- The product of two exact values, if it is exact again. -/
theorem f64Mul_dyadic {i j e f : Int} (hi : i.natAbs < 2 ^ 53) (hj : j.natAbs < 2 ^ 53) (hij : (i * j).natAbs < 2 ^ 53)
    (hpos : 0 < j) (he : -500 ≤ e ∧ e ≤ 500) (hf : -500 ≤ f ∧ f ≤ 500) :
    f64Mul (dyadic i e) (dyadic j f) = dyadic (i * j) (e + f) := by
  obtain ⟨k, hk⟩ := f64FromBits_dyadic (e := e) hi (by omega) (by omega)
  obtain ⟨l, hl⟩ := f64FromBits_dyadic (e := f) hj (by omega) (by omega)
  have hjn : decide (j < 0) = false := by simpa using hpos.le
  have hs : decide (i * j < 0) = decide (i < 0) := by
    congr 1
    exact propext ⟨fun h => by by_contra hc; exact absurd h (not_lt.mpr (mul_nonneg (not_lt.mp hc) hpos.le)),
      fun h => mul_neg_of_neg_of_pos h hpos⟩
  have hm : i.natAbs * 2 ^ k * (j.natAbs * 2 ^ l) = (i * j).natAbs * 2 ^ (k + l) := by
    rw [Int.natAbs_mul, pow_add]; ring
  have hx : e - (k : Int) + (f - l) = e + f - ((k + l : Nat) : Int) := by push_cast; ring
  unfold f64Mul
  rw [hk, hl]
  simp only [mulValue, f64Bits, hjn, Bool.bne_false]
  rw [hm, hx, roundPattern_scale hij (by omega)]
  unfold dyadic
  rw [hs]

/-- The sum of two exact values of one exponent, if it is exact again. -/
theorem f64Add_dyadic {i j e : Int} (hi : i.natAbs < 2 ^ 53) (hj : j.natAbs < 2 ^ 53) (hij : (i + j).natAbs < 2 ^ 53)
    (he : -1022 ≤ e ∧ e ≤ 900) : f64Add (dyadic i e) (dyadic j e) = dyadic (i + j) e := by
  obtain ⟨k, hk⟩ := f64FromBits_dyadic (e := e) hi he.1 he.2
  obtain ⟨l, hl⟩ := f64FromBits_dyadic (e := e) hj he.1 he.2
  have signed : ∀ x : Int, (if decide (x < 0) = true then -(x.natAbs : Int) else x.natAbs) = x := by
    intro x
    by_cases hx : x < 0
    · simp only [hx, decide_true, if_true]; omega
    · simp only [hx, decide_false, Bool.false_eq_true, if_false]; omega
  unfold f64Add
  rw [hk, hl]
  simp only [addValue]
  rw [natAbs_scaled _ _ _ _ _ (min_le_left _ _), natAbs_scaled _ _ _ _ _ (min_le_right _ _), signed, signed, ← add_mul]
  generalize hlow : min (e - (k : Int)) (e - l) = low
  have hle : low ≤ e := by omega
  have hpos : (0 : Int) < 2 ^ (e - low).toNat := by positivity
  by_cases hz : i + j = 0
  · have hn : (decide (i < 0) && decide (j < 0)) = false := by
      rw [Bool.and_eq_false_iff]
      by_cases hi0 : i < 0
      · exact .inr (by simp; omega)
      · exact .inl (by simpa using hi0)
    rw [hz, zero_mul, if_pos rfl, hn]
    simp only [f64Bits, dyadic]
    simp [roundPattern, magnitudeBits]
  · have hne : (i + j) * 2 ^ (e - low).toNat ≠ 0 := mul_ne_zero hz (by omega)
    rw [if_neg hne]
    have := dyadic_scale (i := i + j) (e := e) hij (by omega) (e - low).toNat
    rw [show e - ((e - low).toNat : Int) = low by omega] at this
    rw [← this]
    rfl

end Sys2Proof.Machine
end

