-- ==== Sys2Proof/Laws/PerInstr.lean ====
section
/-! SUPPORT. One lemma per command, for statements about all commands: the word of a command carries the major opcode of
its family (30_encoding.md R71), and its variant bit is set only under SCFG (R70, R75). -/

namespace Sys2Proof.Laws.OpcodeAndVariantFields

/-- The major opcode of a command's family (R71). -/
def majorOpcode : Instr → BitVec 4
  | .seedXs32 | .seedXs64 | .seedXs128 | .seedXsp | .seedXo128 | .seedXo256 | .seedSm64 | .seedMb32 => 0x1
  | .nextXs32 | .nextXs64 | .nextXs128 | .nextXsp | .nextXo128 | .nextXo256 | .nextSm64 | .nextMb32 => 0x2
  | .scfg _ _ => 0x3
  | .nextb => 0x4
  | .cvtMul | .cvtBitcast | .cvtD32 | .cvtD52 => 0x5
  | .stat => 0x6

/-- Whether a command's word has its variant bit set: only the O'Neill variant of SCFG (R75). -/
def setsVariantBit : Instr → Bool
  | .scfg _ .oneill => true
  | _ => false

/-- The fields `op` and `v` of a command's word. -/
def Statement (i : Instr) : Prop :=
  opField (encode i) = majorOpcode i ∧ vField (encode i) = setsVariantBit i

theorem seedXs32 : Statement .seedXs32 := ⟨by decide, by decide⟩
theorem seedXs64 : Statement .seedXs64 := ⟨by decide, by decide⟩
theorem seedXs128 : Statement .seedXs128 := ⟨by decide, by decide⟩
theorem seedXsp : Statement .seedXsp := ⟨by decide, by decide⟩
theorem seedXo128 : Statement .seedXo128 := ⟨by decide, by decide⟩
theorem seedXo256 : Statement .seedXo256 := ⟨by decide, by decide⟩
theorem seedSm64 : Statement .seedSm64 := ⟨by decide, by decide⟩
theorem seedMb32 : Statement .seedMb32 := ⟨by decide, by decide⟩
theorem nextXs32 : Statement .nextXs32 := ⟨by decide, by decide⟩
theorem nextXs64 : Statement .nextXs64 := ⟨by decide, by decide⟩
theorem nextXs128 : Statement .nextXs128 := ⟨by decide, by decide⟩
theorem nextXsp : Statement .nextXsp := ⟨by decide, by decide⟩
theorem nextXo128 : Statement .nextXo128 := ⟨by decide, by decide⟩
theorem nextXo256 : Statement .nextXo256 := ⟨by decide, by decide⟩
theorem nextSm64 : Statement .nextSm64 := ⟨by decide, by decide⟩
theorem nextMb32 : Statement .nextMb32 := ⟨by decide, by decide⟩
theorem scfg (src : Bank) (var : Variant) : Statement (.scfg src var) := by
  constructor <;> cases src <;> cases var <;> decide
theorem nextb : Statement .nextb := ⟨by decide, by decide⟩
theorem cvtMul : Statement .cvtMul := ⟨by decide, by decide⟩
theorem cvtBitcast : Statement .cvtBitcast := ⟨by decide, by decide⟩
theorem cvtD32 : Statement .cvtD32 := ⟨by decide, by decide⟩
theorem cvtD52 : Statement .cvtD52 := ⟨by decide, by decide⟩
theorem stat : Statement .stat := ⟨by decide, by decide⟩

end Sys2Proof.Laws.OpcodeAndVariantFields
end

