-- ==== Sys2Proof/Tests/Slice0.lean ====
section
/-! SUPPORT. Tests, each on one step or one word, with expected results from spec/95_test_vectors.md (vector numbers V<n>,
P<n> in the comments) or from the encoding tables of spec/30_encoding.md; and, for every obligation with hypotheses, a
witness: concrete states and operands that meet all of them together. -/

namespace Sys2Proof.Tests

open Sys2Proof.Machine

/-- An architectural state with nothing in it: every register zero, no generator, no sampler. -/
def blank : Arch where
  xs32 := 0
  xs64 := 0
  xs128 := { x := 0, y := 0, z := 0, w := 0 }
  xsp := { s0 := 0, s1 := 0 }
  xo128 := { s0 := 0, s1 := 0, s2 := 0, s3 := 0 }
  xo256 := { s0 := 0, s1 := 0, s2 := 0, s3 := 0 }
  sm64 := 0
  mb32 := 0
  gvalid := 0
  range := 0
  src := .xs32
  var := .modulo
  svalid := false

/-- The ports with `a`, `b`, `c`, `d` on them. -/
def on (a : W64) (b : W64 := 0) (c : W64 := 0) (d : W64 := 0) : Ports := { a := a, b := b, c := c, d := d }

/-- An idle block with these registers and ports, and nothing more to come from the host. -/
def idleWith (r : Arch) (p : Ports := on 0) : State where
  arch := r
  ports := p
  phase := .idle
  completion := none
  host := []
  freeCount := 0

/-- A sampler over a MB32 generator whose first draw is 0 and whose second is 0x4434B462 (V6, V34). -/
def mb32Sampler (range : W32) (var : Variant) : Arch :=
  { blank with mb32 := 0x92D4860B, gvalid := 0x80, src := .mb32, var := var, range := range, svalid := true }

/-- A sampler over a XS32 generator in state `x`. -/
def xs32Sampler (x : W32) (range : W32) (var : Variant) : Arch :=
  { blank with xs32 := x, gvalid := 1, src := .xs32, var := var, range := range, svalid := true }

/-- What a step completed with, if it did. -/
def answer : Out → Option (Status × W64)
  | .next t => t.completion.map fun c => (c.st, c.r)
  | .fault _ => none
  | .refused _ => none

/-- The status alone: the result of a failure is a free value (60_exceptions.md R204). -/
def statusOf (o : Out) : Option Status := (answer o).map (·.1)

/-- The architectural state a step left. -/
def left : Out → Option Arch
  | .next t => some t.arch
  | .fault _ => none
  | .refused _ => none

/-! ### Decoding: words written out field by field, v sel op (30_encoding.md R70 to R74, R78) -/

theorem test_decode_seed :
    decode 0b0_000_0001#8 = .ok .seedXs32 ∧
    decode 0b0_001_0001#8 = .ok .seedXs64 ∧
    decode 0b0_010_0001#8 = .ok .seedXs128 ∧
    decode 0b0_011_0001#8 = .ok .seedXsp ∧
    decode 0b0_100_0001#8 = .ok .seedXo128 ∧
    decode 0b0_101_0001#8 = .ok .seedXo256 ∧
    decode 0b0_110_0001#8 = .ok .seedSm64 ∧
    decode 0b0_111_0001#8 = .ok .seedMb32 := by
  exact ⟨rfl, rfl, rfl, rfl, rfl, rfl, rfl, rfl⟩

theorem test_decode_next :
    decode 0b0_000_0010#8 = .ok .nextXs32 ∧
    decode 0b0_001_0010#8 = .ok .nextXs64 ∧
    decode 0b0_010_0010#8 = .ok .nextXs128 ∧
    decode 0b0_011_0010#8 = .ok .nextXsp ∧
    decode 0b0_100_0010#8 = .ok .nextXo128 ∧
    decode 0b0_101_0010#8 = .ok .nextXo256 ∧
    decode 0b0_110_0010#8 = .ok .nextSm64 ∧
    decode 0b0_111_0010#8 = .ok .nextMb32 := by
  exact ⟨rfl, rfl, rfl, rfl, rfl, rfl, rfl, rfl⟩

theorem test_decode_scfg :
    decode 0b0_000_0011#8 = .ok (.scfg .xs32 .modulo) ∧
    decode 0b0_010_0011#8 = .ok (.scfg .xs128 .modulo) ∧
    decode 0b0_100_0011#8 = .ok (.scfg .xo128 .modulo) ∧
    decode 0b0_111_0011#8 = .ok (.scfg .mb32 .modulo) ∧
    decode 0b1_000_0011#8 = .ok (.scfg .xs32 .oneill) ∧
    decode 0b1_010_0011#8 = .ok (.scfg .xs128 .oneill) ∧
    decode 0b1_100_0011#8 = .ok (.scfg .xo128 .oneill) ∧
    decode 0b1_111_0011#8 = .ok (.scfg .mb32 .oneill) := by
  exact ⟨rfl, rfl, rfl, rfl, rfl, rfl, rfl, rfl⟩

theorem test_decode_nextb_cvt_stat :
    decode 0b0_000_0100#8 = .ok .nextb ∧
    decode 0b0_000_0101#8 = .ok .cvtMul ∧
    decode 0b0_001_0101#8 = .ok .cvtBitcast ∧
    decode 0b0_010_0101#8 = .ok .cvtD32 ∧
    decode 0b0_011_0101#8 = .ok .cvtD52 ∧
    decode 0b0_000_0110#8 = .ok .stat := by
  exact ⟨rfl, rfl, rfl, rfl, rfl, rfl⟩

/-- V50: illegal words, with the causes of R78. -/
theorem test_decode_illegal :
    decode 0x00#8 = .error .opcode ∧
    decode 0xFF#8 = .error .opcode ∧
    decode 0x81#8 = .error .variantBit ∧
    decode 0xF2#8 = .error .variantBit ∧
    decode 0x13#8 = .error .sourceBank ∧
    decode 0xE3#8 = .error .sourceBank ∧
    decode 0x14#8 = .error .selNotZero ∧
    decode 0x84#8 = .error .variantBit ∧
    decode 0x45#8 = .error .functionCode ∧
    decode 0xB5#8 = .error .variantBit ∧
    decode 0x16#8 = .error .selNotZero ∧
    decode 0x86#8 = .error .variantBit ∧
    decode 0x07#8 = .error .opcode ∧
    decode 0x08#8 = .error .opcode ∧
    decode 0x0F#8 = .error .opcode ∧
    decode 0x7A#8 = .error .opcode ∧
    decode 0x10#8 = .error .opcode ∧
    decode 0x70#8 = .error .opcode := by
  exact ⟨rfl, rfl, rfl, rfl, rfl, rfl, rfl, rfl, rfl, rfl, rfl, rfl, rfl, rfl, rfl, rfl, rfl, rfl⟩

/-- How many of the 256 words a test holds of. -/
def wordCount (p : W8 → Bool) : Nat := ((List.range 256).filter fun n => p (BitVec.ofNat 8 n)).length

/-- Whether a word is rejected for this cause. -/
def rejectedFor (c : IllegalWord) (w : W8) : Bool :=
  match decode w with
  | .ok _ => false
  | .error e => e == c

/-- The counts of R78: 30 legal words; illegal 160 + 40 + 8 + 14 + 4. -/
theorem test_decode_counts :
    wordCount (fun w => (decode w).isOk) = 30 ∧ wordCount (rejectedFor .opcode) = 160 ∧
    wordCount (rejectedFor .variantBit) = 40 ∧ wordCount (rejectedFor .sourceBank) = 8 ∧
    wordCount (rejectedFor .selNotZero) = 14 ∧ wordCount (rejectedFor .functionCode) = 4 := by
  decide +kernel

/-- The encoder on one instruction of each family. -/
theorem test_encode :
    encode .seedXo256 = 0x51#8 ∧ encode .nextMb32 = 0x72#8 ∧ encode (.scfg .xs128 .oneill) = 0xA3#8 ∧
    encode .nextb = 0x04#8 ∧ encode .cvtD52 = 0x35#8 ∧ encode .stat = 0x06#8 := by
  decide

/-! ### Well-formedness: SCFG from a bank with a 64-bit output is no command (R73) -/

theorem test_illformed_scfg_refused :
    (Instr.scfg .xs64 .modulo).wellFormed = false ∧
    (Instr.scfg .xsp .modulo).wellFormed = false ∧
    (Instr.scfg .xo256 .oneill).wellFormed = false ∧
    (Instr.scfg .sm64 .oneill).wellFormed = false := by
  decide

theorem test_wellformed_scfg :
    (Instr.scfg .xs32 .modulo).wellFormed = true ∧
    (Instr.scfg .xs128 .modulo).wellFormed = true ∧
    (Instr.scfg .xo128 .modulo).wellFormed = true ∧
    (Instr.scfg .mb32 .modulo).wellFormed = true := by
  decide

/-! ### The host's two probes -/

theorem test_decodeTableWord :
    decodeTableWord 8 0x72 = some .nextMb32 ∧ decodeTableWord 8 0x13 = none ∧
    decodeTableWord 8 0xA3 = some (.scfg .xs128 .oneill) := by
  decide

/-- V51, V52: the first command after reset, presented by `withFetchWord`. -/
theorem test_first_command_after_reset :
    answer (step (State.reset.withFetchWord 8 0x06)) = some (.ok, 0) ∧
    statusOf (step (State.reset.withFetchWord 8 0x12)) = some .notSeeded ∧
    statusOf (step (State.reset.withFetchWord 8 0x04)) = some .noSampler ∧
    statusOf (step (State.reset.withFetchWord 8 0x03)) = some .notSeeded ∧
    statusOf (step (State.reset.withFetchWord 8 0x13)) = some .illegalCmd ∧
    statusOf (step (State.reset.withFetchWord 8 0x41)) = some .zeroSeed := by
  exact ⟨rfl, rfl, rfl, rfl, rfl, rfl⟩

/-! ### SEED -/

/-- V10: only a[31:0] is read. -/
theorem test_seed_xs32 :
    left (exec .seedXs32 (idleWith blank (on 0xFFFFFFFF00000001))) =
      some { blank with xs32 := 1, gvalid := 0x01 } := by
  decide +kernel

/-- V11: all 64 bits are read. -/
theorem test_seed_xs64 :
    left (exec .seedXs64 (idleWith blank (on 0x0000000100000000))) =
      some { blank with xs64 := 0x0000000100000000, gvalid := 0x02 } := by
  decide +kernel

/-- V12, P4: one word that is not zero is enough. -/
theorem test_seed_xs128 :
    left (exec .seedXs128 (idleWith blank (on 0 0 0 1))) =
      some { blank with xs128 := { x := 0, y := 0, z := 0, w := 1 }, gvalid := 0x04 } := by
  decide +kernel

/-- V13: the words in order. -/
theorem test_seed_xsp :
    left (exec .seedXsp (idleWith blank (on 1 2))) =
      some { blank with xsp := { s0 := 1, s1 := 2 }, gvalid := 0x08 } := by
  decide +kernel

/-- V14: the words in order. -/
theorem test_seed_xo128 :
    left (exec .seedXo128 (idleWith blank (on 1 2 3 4))) =
      some { blank with xo128 := { s0 := 1, s1 := 2, s2 := 3, s3 := 4 }, gvalid := 0x10 } := by
  decide +kernel

/-- V51: one word that is not zero is enough. -/
theorem test_seed_xo256 :
    left (exec .seedXo256 (idleWith blank (on 0 0 0 1))) =
      some { blank with xo256 := { s0 := 0, s1 := 0, s2 := 0, s3 := 1 }, gvalid := 0x20 } := by
  decide +kernel

/-- V16. -/
theorem test_seed_sm64 :
    left (exec .seedSm64 (idleWith blank (on 0x61C8864680B583EB))) =
      some { blank with sm64 := 0x61C8864680B583EB, gvalid := 0x40 } := by
  decide +kernel

/-- V17. -/
theorem test_seed_mb32 :
    left (exec .seedMb32 (idleWith blank (on 0x0000000092D4860B))) =
      some { blank with mb32 := 0x92D4860B, gvalid := 0x80 } := by
  decide +kernel

/-- V10, V51: the zero seed is refused, for the counters too; of narrow words only the low halves count. -/
theorem test_seed_zero :
    statusOf (exec .seedXs32 (idleWith blank (on 0x0000000100000000))) = some .zeroSeed ∧
    statusOf (exec .seedXs64 (idleWith blank)) = some .zeroSeed ∧
    statusOf (exec .seedXs128 (idleWith blank (on 0x100000000 0x100000000 0x100000000 0x100000000))) = some .zeroSeed ∧
    statusOf (exec .seedXsp (idleWith blank)) = some .zeroSeed ∧
    statusOf (exec .seedXo128 (idleWith blank)) = some .zeroSeed ∧
    statusOf (exec .seedXo256 (idleWith blank)) = some .zeroSeed ∧
    statusOf (exec .seedSm64 (idleWith blank)) = some .zeroSeed ∧
    statusOf (exec .seedMb32 (idleWith blank)) = some .zeroSeed := by
  exact ⟨rfl, rfl, rfl, rfl, rfl, rfl, rfl, rfl⟩

/-! ### NEXT -/

/-- V1: the one output the source document prints. -/
theorem test_next_xs32 :
    answer (exec .nextXs32 (idleWith { blank with xs32 := 1, gvalid := 0x01 })) =
      some (.ok, 0x0000000000042021) ∧
    left (exec .nextXs32 (idleWith { blank with xs32 := 1, gvalid := 0x01 })) =
      some { blank with xs32 := 0x00042021, gvalid := 0x01 } := by
  decide +kernel

/-- V10: left shifts discard bits. -/
theorem test_next_xs32_high :
    answer (exec .nextXs32 (idleWith { blank with xs32 := 0x80000000, gvalid := 0x01 })) =
      some (.ok, 0x0000000080084000) ∧
    left (exec .nextXs32 (idleWith { blank with xs32 := 0x80000000, gvalid := 0x01 })) =
      some { blank with xs32 := 0x80084000, gvalid := 0x01 } := by
  decide +kernel

/-- V11. -/
theorem test_next_xs64 :
    answer (exec .nextXs64 (idleWith { blank with xs64 := 1, gvalid := 0x02 })) =
      some (.ok, 0x0000000040822041) ∧
    left (exec .nextXs64 (idleWith { blank with xs64 := 1, gvalid := 0x02 })) =
      some { blank with xs64 := 0x0000000040822041, gvalid := 0x02 } := by
  decide +kernel

/-- V11. -/
theorem test_next_xs64_ones :
    answer (exec .nextXs64 (idleWith { blank with xs64 := 0xFFFFFFFFFFFFFFFF, gvalid := 0x02 })) =
      some (.ok, 0x000000003F801FC0) ∧
    left (exec .nextXs64 (idleWith { blank with xs64 := 0xFFFFFFFFFFFFFFFF, gvalid := 0x02 })) =
      some { blank with xs64 := 0x000000003F801FC0, gvalid := 0x02 } := by
  decide +kernel

/-- V12. -/
theorem test_next_xs128 :
    answer (exec .nextXs128 (idleWith { blank with xs128 := { x := 1, y := 2, z := 3, w := 4 }, gvalid := 0x04 })) =
      some (.ok, 0x000000000000080D) ∧
    left (exec .nextXs128 (idleWith { blank with xs128 := { x := 1, y := 2, z := 3, w := 4 }, gvalid := 0x04 })) =
      some { blank with xs128 := { x := 2, y := 3, z := 4, w := 0x80D }, gvalid := 0x04 } := by
  decide +kernel

/-- V13. -/
theorem test_next_xsp :
    answer (exec .nextXsp (idleWith { blank with xsp := { s0 := 2, s1 := 0x800023 }, gvalid := 0x08 })) =
      some (.ok, 0x0000000000800025) ∧
    left (exec .nextXsp (idleWith { blank with xsp := { s0 := 2, s1 := 0x800023 }, gvalid := 0x08 })) =
      some { blank with xsp := { s0 := 0x800023, s1 := 0x1840060 }, gvalid := 0x08 } := by
  decide +kernel

/-- V13: the sum wraps. -/
theorem test_next_xsp_wraps :
    answer (exec .nextXsp (idleWith { blank with xsp := { s0 := 0xFFFFFFFFFFFFFFFF, s1 := 0xFFFFFFFFFFFFFFFF }, gvalid := 0x08 })) =
      some (.ok, 0xFFFFFFFFFFFFFFFE) ∧
    left (exec .nextXsp (idleWith { blank with xsp := { s0 := 0xFFFFFFFFFFFFFFFF, s1 := 0xFFFFFFFFFFFFFFFF }, gvalid := 0x08 })) =
      some { blank with xsp := { s0 := 0xFFFFFFFFFFFFFFFF, s1 := 0xF8000000007FFFE0 }, gvalid := 0x08 } := by
  decide +kernel

/-- V14. -/
theorem test_next_xo128 :
    answer (exec .nextXo128 (idleWith { blank with xo128 := { s0 := 1, s1 := 2, s2 := 3, s3 := 4 }, gvalid := 0x10 })) =
      some (.ok, 0x0000000000000281) ∧
    left (exec .nextXo128 (idleWith { blank with xo128 := { s0 := 1, s1 := 2, s2 := 3, s3 := 4 }, gvalid := 0x10 })) =
      some { blank with xo128 := { s0 := 7, s1 := 0, s2 := 0x402, s3 := 0x3000 }, gvalid := 0x10 } := by
  decide +kernel

/-- V14, output 7. -/
theorem test_next_xo128_later :
    answer (exec .nextXo128 (idleWith { blank with xo128 := { s0 := 0x42386C0B, s1 := 0x11147A08, s2 := 0x90F07406, s3 := 0x81102216 }, gvalid := 0x10 })) =
      some (.ok, 0x00000000E67F7CEC) ∧
    left (exec .nextXo128 (idleWith { blank with xo128 := { s0 := 0x42386C0B, s1 := 0x11147A08, s2 := 0x90F07406, s3 := 0x81102216 }, gvalid := 0x10 })) =
      some { blank with xo128 := { s0 := 0xD23C3415, s1 := 0xC3DC6205, s2 := 0xFA3C080D, s3 := 0x22C0F480 }, gvalid := 0x10 } := by
  decide +kernel

/-- V15. -/
theorem test_next_xo256 :
    answer (exec .nextXo256 (idleWith { blank with xo256 := { s0 := 1, s1 := 2, s2 := 3, s3 := 4 }, gvalid := 0x20 })) =
      some (.ok, 0x0000000002800001) ∧
    left (exec .nextXo256 (idleWith { blank with xo256 := { s0 := 1, s1 := 2, s2 := 3, s3 := 4 }, gvalid := 0x20 })) =
      some { blank with xo256 := { s0 := 7, s1 := 0, s2 := 0x40002, s3 := 0x0000C00000000000 }, gvalid := 0x20 } := by
  decide +kernel

/-- V15, output 2. -/
theorem test_next_xo256_later :
    answer (exec .nextXo256 (idleWith { blank with xo256 := { s0 := 7, s1 := 0, s2 := 0x40002, s3 := 0x0000C00000000000 }, gvalid := 0x20 })) =
      some (.ok, 0x0000000003800067) ∧
    left (exec .nextXo256 (idleWith { blank with xo256 := { s0 := 7, s1 := 0, s2 := 0x40002, s3 := 0x0000C00000000000 }, gvalid := 0x20 })) =
      some { blank with xo256 := { s0 := 0x0000C00000000007, s1 := 0x40005, s2 := 0x40005, s3 := 0x18000000 }, gvalid := 0x20 } := by
  decide +kernel

/-- V16. -/
theorem test_next_sm64 :
    answer (exec .nextSm64 (idleWith { blank with sm64 := 1, gvalid := 0x40 })) =
      some (.ok, 0x910A2DEC89025CC1) ∧
    left (exec .nextSm64 (idleWith { blank with sm64 := 1, gvalid := 0x40 })) =
      some { blank with sm64 := 0x9E3779B97F4A7C16, gvalid := 0x40 } := by
  decide +kernel

/-- V16: the counter passes through zero. -/
theorem test_next_sm64_zero :
    answer (exec .nextSm64 (idleWith { blank with sm64 := 0x61C8864680B583EB, gvalid := 0x40 })) =
      some (.ok, 0) ∧
    left (exec .nextSm64 (idleWith { blank with sm64 := 0x61C8864680B583EB, gvalid := 0x40 })) =
      some { blank with sm64 := 0, gvalid := 0x40 } := by
  decide +kernel

/-- V17. -/
theorem test_next_mb32 :
    answer (exec .nextMb32 (idleWith { blank with mb32 := 1, gvalid := 0x80 })) =
      some (.ok, 0x00000000A087EAF3) ∧
    left (exec .nextMb32 (idleWith { blank with mb32 := 1, gvalid := 0x80 })) =
      some { blank with mb32 := 0x6D2B79F6, gvalid := 0x80 } := by
  decide +kernel

/-- V17: the counter passes through zero. -/
theorem test_next_mb32_zero :
    answer (exec .nextMb32 (idleWith { blank with mb32 := 0x92D4860B, gvalid := 0x80 })) =
      some (.ok, 0) ∧
    left (exec .nextMb32 (idleWith { blank with mb32 := 0x92D4860B, gvalid := 0x80 })) =
      some { blank with mb32 := 0, gvalid := 0x80 } := by
  decide +kernel

/-- V51: an empty bank is refused, whichever bank it is. -/
theorem test_next_empty :
    statusOf (exec .nextXs32 (idleWith { blank with gvalid := 0xFE })) = some .notSeeded ∧
    statusOf (exec .nextXs64 (idleWith { blank with gvalid := 0xFD })) = some .notSeeded ∧
    statusOf (exec .nextXs128 (idleWith { blank with gvalid := 0xFB })) = some .notSeeded ∧
    statusOf (exec .nextXsp (idleWith { blank with gvalid := 0xF7 })) = some .notSeeded ∧
    statusOf (exec .nextXo128 (idleWith { blank with gvalid := 0xEF })) = some .notSeeded ∧
    statusOf (exec .nextXo256 (idleWith { blank with gvalid := 0xDF })) = some .notSeeded ∧
    statusOf (exec .nextSm64 (idleWith { blank with gvalid := 0xBF })) = some .notSeeded ∧
    statusOf (exec .nextMb32 (idleWith { blank with gvalid := 0x7F })) = some .notSeeded := by
  exact ⟨rfl, rfl, rfl, rfl, rfl, rfl, rfl, rfl⟩

/-! ### The sampler -/

/-- P3. -/
theorem test_scfg :
    left (exec (.scfg .xs32 .oneill) (idleWith { blank with xs32 := 1, gvalid := 1 } (on 0xC0000000))) =
      some (xs32Sampler 1 0xC0000000 .oneill) := by
  decide +kernel

/-- V51: NOT_SEEDED comes before ZERO_RANGE, and the bank named is the one checked. -/
theorem test_scfg_refused :
    statusOf (exec (.scfg .xs32 .modulo) (idleWith blank)) = some .notSeeded ∧
    statusOf (exec (.scfg .xs32 .modulo) (idleWith { blank with gvalid := 1 })) = some .zeroRange ∧
    statusOf (exec (.scfg .xs128 .modulo) (idleWith { blank with gvalid := 1 } (on 5))) = some .notSeeded := by
  exact ⟨rfl, rfl, rfl⟩

/-- V30: rows of every path of the second procedure, powers of two among them. -/
theorem test_thresholds :
    [0x00000001#32, 0x00000006#32, 0x0002976A#32, 0x55555556#32, 0x80000000#32, 0x80000001#32, 0xFFFFFFFF#32].map
      threshold0 = [0, 4, 0x89C6, 0x55555554, 0, 0x7FFFFFFF, 1] ∧
    [0x00000001#32, 0x00000006#32, 0x0002976A#32, 0x55555556#32, 0x80000000#32, 0x80000001#32, 0xFFFFFFFF#32].map
      threshold1 = [0, 4, 0x89C6, 0x55555554, 0, 0x7FFFFFFF, 1] := by
  decide +kernel

/-- P3, the fourth NEXTB: a low half equal to the threshold is accepted. -/
theorem test_nextb_at_the_threshold :
    answer (exec .nextb (idleWith (xs32Sampler 0x9DCCA8C5 0xC0000000 .modulo))) = some (.ok, 0x000000000DC032FB) := by
  decide +kernel

/-- P3, the sixth NEXTB, its first draw: rejected; the block stays busy with the threshold and presents nothing. -/
theorem test_nextb_rejected :
    exec .nextb (idleWith (xs32Sampler 0x8EF917D1 0xC0000000 .oneill)) =
      .next { idleWith (xs32Sampler 0x2C6F5BD0 0xC0000000 .oneill) with phase := .rejecting 0x40000000 } := by
  rfl

/-- P3, the sixth NEXTB, its second draw: accepted. -/
theorem test_nextb_redraw :
    answer (step { idleWith (xs32Sampler 0x2C6F5BD0 0xC0000000 .oneill) with phase := .rejecting 0x40000000 }) =
      some (.ok, 0x000000001C45A653) := by
  decide +kernel

/-- V33: the first drawing results of the other sources at range 100, each from one draw. -/
theorem test_nextb_sources :
    answer (exec .nextb (idleWith { blank with
      xs128 := { x := 1, y := 2, z := 3, w := 4 }, gvalid := 4, src := .xs128, range := 100, svalid := true })) =
      some (.ok, 0) ∧
    answer (exec .nextb (idleWith { blank with
      xo128 := { s0 := 0x3007, s1 := 0x405, s2 := 0x405, s3 := 0x1800000 },
      gvalid := 0x10, src := .xo128, range := 100, svalid := true })) = some (.ok, 75) ∧
    answer (exec .nextb (idleWith { blank with
      mb32 := 1, gvalid := 0x80, src := .mb32, range := 100, svalid := true })) = some (.ok, 62) := by
  decide +kernel

/-! ### Conversions -/

/-- V20: zero, the discarded bits, one half, the largest, and a value that differs from CVT.BITCAST. -/
theorem test_cvt_mul :
    answer (exec .cvtMul (idleWith blank (on 0x7FF))) = some (.ok, 0) ∧
    answer (exec .cvtMul (idleWith blank (on 0x800))) = some (.ok, 0x3CA0000000000000) ∧
    answer (exec .cvtMul (idleWith blank (on 0x8000000000000000))) = some (.ok, 0x3FE0000000000000) ∧
    answer (exec .cvtMul (idleWith blank (on 0xFFFFFFFFFFFFFFFF))) = some (.ok, 0x3FEFFFFFFFFFFFFF) ∧
    answer (exec .cvtMul (idleWith blank (on 0x910A2DEC89025CC1))) = some (.ok, 0x3FE22145BD91204B) := by
  decide +kernel

/-- V21. -/
theorem test_cvt_bitcast :
    answer (exec .cvtBitcast (idleWith blank (on 0xFFF))) = some (.ok, 0) ∧
    answer (exec .cvtBitcast (idleWith blank (on 0x1000))) = some (.ok, 0x3CB0000000000000) ∧
    answer (exec .cvtBitcast (idleWith blank (on 0x8000000000000000))) = some (.ok, 0x3FE0000000000000) ∧
    answer (exec .cvtBitcast (idleWith blank (on 0xFFFFFFFFFFFFFFFF))) = some (.ok, 0x3FEFFFFFFFFFFFFE) ∧
    answer (exec .cvtBitcast (idleWith blank (on 0x910A2DEC89025CC1))) = some (.ok, 0x3FE22145BD91204A) := by
  decide +kernel

/-- V22: the most negative integer, -1, 0, the largest, and a[63:32] ignored. -/
theorem test_cvt_d32 :
    answer (exec .cvtD32 (idleWith blank (on 0x80000000))) = some (.ok, 0) ∧
    answer (exec .cvtD32 (idleWith blank (on 0xFFFFFFFF))) = some (.ok, 0x3FDFFFFFFFC00000) ∧
    answer (exec .cvtD32 (idleWith blank (on 0))) = some (.ok, 0x3FE0000000000000) ∧
    answer (exec .cvtD32 (idleWith blank (on 0x7FFFFFFF))) = some (.ok, 0x3FEFFFFFFFE00000) ∧
    answer (exec .cvtD32 (idleWith blank (on 0xFFFFFFFF00042021))) = some (.ok, 0x3FE0008404200000) := by
  decide +kernel

/-- V23: never zero, b[31:20] ignored, the largest. -/
theorem test_cvt_d52 :
    answer (exec .cvtD52 (idleWith blank (on 0x80000000 0))) = some (.ok, 0x3CA0000000000000) ∧
    answer (exec .cvtD52 (idleWith blank (on 0x80000000 0xFFF00000))) = some (.ok, 0x3CA0000000000000) ∧
    answer (exec .cvtD52 (idleWith blank (on 0x80000000 0x000FFFFF))) = some (.ok, 0x3DEFFFFF00000000) ∧
    answer (exec .cvtD52 (idleWith blank (on 0x7FFFFFFF 0xFFFFFFFF))) = some (.ok, 0x3FEFFFFFFFFFFFFF) ∧
    answer (exec .cvtD52 (idleWith blank (on 0x00042021 0x04080601))) = some (.ok, 0x3FE0008404300C03) := by
  decide +kernel

/-! ### Status, host -/

/-- V52, P5: every field of the status word. -/
theorem test_stat :
    answer (exec .stat (idleWith { blank with
      gvalid := 0xFF, src := .mb32, var := .oneill, range := 0xFFFFFFFF, svalid := true })) =
      some (.ok, 0xFFFFFFFF00001FFF) ∧
    answer (exec .stat (idleWith { blank with gvalid := 0x10, src := .xo128, range := 6, svalid := true })) =
      some (.ok, 0x0000000600000910) := by
  decide +kernel

/-- V9: the earlier output is the high half. -/
theorem test_pair64 : pair64 0x00042021 0x04080601 = 0x0004202104080601 := by decide +kernel

/-- R78, R81: names of commands. -/
theorem test_mnemonics : mnemonic .seedXo128 = "SEED.XO128" ∧ mnemonic .cvtBitcast = "CVT.BITCAST" := by decide

/-! ### Witnesses -/
/-- StuckCommandPortIsIllegal, DecodeInvertsEncode: a word that decodes, and one that does not. -/
theorem witness_DecodeInvertsEncode :
    decode 0xF3#8 = .ok (.scfg .mb32 .oneill) ∧ (Instr.scfg .mb32 .oneill).wellFormed = true ∧
    encode (.scfg .mb32 .oneill) = 0xF3#8 := by
  exact ⟨rfl, rfl, rfl⟩

/-- IllegalWordsAreRejectedByTheirCause: a word for each cause, at both ends of its range. -/
theorem witness_IllegalWordsAreRejectedByTheirCause :
    (opField 0x70#8 = 0 ∧ 7 ≤ opField 0x07#8 ∧ 7 ≤ opField 0xFF#8) ∧
    (opField 0x81#8 ∈ [1#4, 2#4, 4#4, 5#4, 6#4] ∧ opField 0xF6#8 ∈ [1#4, 2#4, 4#4, 5#4, 6#4]) ∧
    (opField 0x13#8 = 3 ∧ selField 0x13#8 ∈ [1#3, 3#3, 5#3, 6#3] ∧ selField 0xE3#8 ∈ [1#3, 3#3, 5#3, 6#3]) ∧
    (opField 0x14#8 = 4 ∧ selField 0x14#8 ≠ 0 ∧ opField 0x76#8 = 6 ∧ selField 0x76#8 ≠ 0) ∧
    (opField 0x45#8 = 5 ∧ 4 ≤ selField 0x45#8 ∧ 4 ≤ selField 0x75#8) := by
  decide

/-- A block to which the host presents one command. -/
def presented (r : Arch) (cmd : W8) (p : Ports := on 0) (rest : List HostEvent := []) : State :=
  { idleWith r with host := .command cmd p :: rest }

/-- A NEXTB over MB32 at range 3 whose first draw, 0, has been rejected (V34). -/
def busy (host : List HostEvent) : State :=
  { idleWith { mb32Sampler 3 .modulo with mb32 := 0 } with phase := .rejecting 1, host := host }

/-- StepPerformsThePresentedCommand: a command, an empty stream, a wait. -/
theorem witness_StepPerformsThePresentedCommand :
    ((presented blank 0x11 (on 7)).phase = .idle ∧
      (presented blank 0x11 (on 7)).host = .command 0x11 (on 7) :: [] ∧ decode 0x11#8 = .ok .seedXs64) ∧
    ((idleWith blank).phase = .idle ∧ (idleWith blank).host = []) ∧
    (let s := { idleWith blank with host := [.wait, .rst] }
     s.phase = .idle ∧ s.host = .wait :: [.rst]) := by
  exact ⟨⟨rfl, rfl, rfl⟩, ⟨rfl, rfl⟩, rfl, rfl⟩

theorem witness_IllegalWordCompletesIllegalCmd :
    (presented blank 0x13 (on 7)).phase = .idle ∧
    (presented blank 0x13 (on 7)).host = .command 0x13 (on 7) :: [] ∧ (∀ i, decode 0x13#8 ≠ .ok i) ∧
    (Instr.scfg .xs64 .modulo).wellFormed = false := by
  exact ⟨rfl, rfl, fun i h => (by cases h), rfl⟩

theorem witness_CommandPresentedWhileBusyIsNotIssued :
    ∃ t, (busy [.command 0x06 (on 0)]).phase = .rejecting 1 ∧
      (busy [.command 0x06 (on 0)]).host = .command 0x06 (on 0) :: [] ∧ step (busy [.command 0x06 (on 0)]) = .next t := by
  exact ⟨_, rfl, rfl, rfl⟩

theorem witness_ResetClearsFlagsAndAbandonsTheCommand :
    (busy [.rst, .wait]).host = .rst :: [.wait] := by
  rfl

/-- CommandsAfterResetFailCleanly: a state with the reset flags and with generator registers and ports that are not
zero; legal sources at both ends. -/
theorem witness_CommandsAfterResetFailCleanly :
    (idleWith { blank with xs32 := 5, mb32 := 7 } (on 9)).arch.SameControl (Arch.reset 0) ∧
    (Instr.scfg .xs32 .modulo).wellFormed = true ∧ (Instr.scfg .mb32 .oneill).wellFormed = true := by
  exact ⟨⟨rfl, rfl, rfl, rfl, rfl⟩, rfl, rfl⟩

/-- SeedOneWordBanksStoreTheSeed: each clause, with a narrow word whose ignored half is all ones, and all zero. -/
theorem witness_SeedOneWordBanksStoreTheSeed :
    ((idleWith blank (on 0xFFFFFFFF00000001)).ports.a.setWidth 32 ≠ 0#32 ∧
      (idleWith blank (on 0xFFFFFFFF00000001)).ports.a ≠ 0) ∧
    (idleWith blank (on 0xFFFFFFFF00000000)).ports.a.setWidth 32 = 0#32 ∧
    (idleWith blank (on 0)).ports.a = 0 := by
  decide

/-- SeedManyWordBanksStoreTheSeed: each clause, the seeds with only their last word not zero among them. -/
theorem witness_SeedManyWordBanksStoreTheSeed :
    (let p := on 0x100000000 0x100000000 0x100000000 0x100000001
     ¬(p.a.setWidth 32 = 0#32 ∧ p.b.setWidth 32 = 0#32 ∧ p.c.setWidth 32 = 0#32 ∧ p.d.setWidth 32 = 0#32)) ∧
    (let p := on 0x100000000 0x100000000 0x100000000 0x100000000
     p.a.setWidth 32 = 0#32 ∧ p.b.setWidth 32 = 0#32 ∧ p.c.setWidth 32 = 0#32 ∧ p.d.setWidth 32 = 0#32) ∧
    (let p := on 0 1; ¬(p.a = 0 ∧ p.b = 0)) ∧ (let p := on 0 0; p.a = 0 ∧ p.b = 0) ∧
    (let p := on 0 0 0 1; ¬(p.a = 0 ∧ p.b = 0 ∧ p.c = 0 ∧ p.d = 0)) ∧
    (let p := on 0 0 0 0; p.a = 0 ∧ p.b = 0 ∧ p.c = 0 ∧ p.d = 0) := by
  decide

/-- The eight NEXT statements (NextXs32StepsByThirteenSeventeenFive, NextXs64StepsByThirteenSevenSeventeen,
NextXs128MovesTheWordsDown, NextXspReturnsTheSumOfItsWords, NextXo128HasItsClosedForm, NextXo256HasItsClosedForm,
NextSm64AddsAndMixes, NextMb32AddsAndMixes): a bank that is seeded, alone, and the same bank empty, alone. -/
theorem witness_NextStatements :
    ∀ i < 8, (idleWith { blank with gvalid := 1#8 <<< i }).arch.gvalid.getLsbD i = true ∧
      (idleWith { blank with gvalid := ~~~(1#8 <<< i) }).arch.gvalid.getLsbD i = false := by
  decide

theorem witness_NonzeroStatesStayNonzero :
    config.Legal ∧ (1 : W32) ≠ 0 ∧ (1 : W64) ≠ 0 ∧
    ({ x := 0, y := 0, z := 0, w := 1 } : Xs128) ≠ { x := 0, y := 0, z := 0, w := 0 } ∧
    ({ s0 := 0, s1 := 1 } : Xsp) ≠ { s0 := 0, s1 := 0 } ∧
    ({ s0 := 0, s1 := 0, s2 := 0, s3 := 1 } : Xo128) ≠ { s0 := 0, s1 := 0, s2 := 0, s3 := 0 } ∧
    ({ s0 := 0, s1 := 0, s2 := 0, s3 := 1 } : Xo256) ≠ { s0 := 0, s1 := 0, s2 := 0, s3 := 0 } := by
  decide

/-- The parameters may be other than the defaults: those of V13's last row are legal too. -/
theorem witness_SplitmixOutputIsABijectionOfTheCounter :
    config.Legal ∧ ∃ c : Config, c.xspB = 17 ∧ c.xspC = 26 ∧ c.Legal := by
  refine ⟨by decide, { xspB := 17, xspC := 26 }, rfl, rfl, ?_⟩
  unfold Config.Legal
  decide

theorem witness_CountersPassThroughZero :
    (let r := { blank with gvalid := 0xC0, sm64 := 0x61C8864680B583EB, mb32 := 0x92D4860B }
     r.gvalid.getLsbD 6 = true ∧ r.gvalid.getLsbD 7 = true ∧ r.sm64 = 0x61C8864680B583EB#64 ∧ r.mb32 = 0x92D4860B#32) ∧
    (let r := { blank with gvalid := 0xC0 }
     r.gvalid.getLsbD 6 = true ∧ r.gvalid.getLsbD 7 = true ∧ r.sm64 = 0 ∧ r.mb32 = 0) := by
  decide

/-- ScfgConstructsTheSampler: each clause, the range at both ends. -/
theorem witness_ScfgConstructsTheSampler :
    (let s := idleWith { blank with gvalid := 0x80 } (on 0xFFFFFFFF00000001)
     s.arch.gvalid.getLsbD 7 = true ∧ s.ports.a.setWidth 32 ≠ 0#32 ∧ s.arch.gvalid.getLsbD 0 = false) ∧
    (let s := idleWith { blank with gvalid := 0x80 } (on 0xFFFFFFFF)
     s.arch.gvalid.getLsbD 7 = true ∧ s.ports.a.setWidth 32 ≠ 0#32) ∧
    (let s := idleWith { blank with gvalid := 0x80 } (on 0xFFFFFFFF00000000)
     s.arch.gvalid.getLsbD 7 = true ∧ s.ports.a.setWidth 32 = 0#32) ∧
    (opField 0x13#8 = 3 ∧ selField 0x13#8 ∈ [1#3, 3#3, 5#3, 6#3]) := by
  decide

/-- BothThresholdsAreTheIdealOne, AcceptedDrawsAreUniform, FewerThanHalfOfTheDrawsAreRejected: the range at both ends, and
a value below it. -/
theorem witness_Ranges : (1 : W32) ≠ 0 ∧ (0xFFFFFFFF : W32) ≠ 0 ∧ (0 : W32) < 1 ∧
    (0xFFFFFFFE : W32) < 0xFFFFFFFF := by
  decide

/-- NextbMakesOneDrawThenDecides: no sampler; a rejected draw (V34); an accepted draw. -/
theorem witness_NextbMakesOneDrawThenDecides :
    (idleWith blank).arch.svalid = false ∧
    (let r := mb32Sampler 3 .modulo
     let m := (draw32 r.src r).2.setWidth 64 * r.range.setWidth 64
     r.svalid = true ∧ m.setWidth 32 < r.range ∧ m.setWidth 32 < threshold0 r.range) ∧
    (let r := mb32Sampler 4 .oneill
     let m := (draw32 r.src r).2.setWidth 64 * r.range.setWidth 64
     r.svalid = true ∧ ¬(m.setWidth 32 < r.range ∧ m.setWidth 32 < threshold1 r.range)) := by
  decide +kernel

/-- BusyStepRedrawsAgainstTheThreshold: a wait and a command at the head of the stream; a rejected and an accepted
redraw. -/
theorem witness_BusyStepRedrawsAgainstTheThreshold :
    ((busy [.wait]).phase = .rejecting 1 ∧ (∀ rest, (busy [.wait]).host ≠ .rst :: rest)) ∧
    ((busy [.command 0x06 (on 0)]).phase = .rejecting 1 ∧
      (∀ rest, (busy [.command 0x06 (on 0)]).host ≠ .rst :: rest)) ∧
    (let r := mb32Sampler 3 .modulo
     ((draw32 r.src r).2.setWidth 64 * r.range.setWidth 64 : W64).setWidth 32 < (1 : W32)) ∧
    (let r := (busy []).arch
     ¬ ((draw32 r.src r).2.setWidth 64 * r.range.setWidth 64 : W64).setWidth 32 < (1 : W32)) := by
  refine ⟨⟨rfl, fun _ h => by cases h⟩, ⟨rfl, fun _ h => by cases h⟩, ?_, ?_⟩
  · decide +kernel
  · decide +kernel

/-- NextbReturnsItsFirstAcceptedDraw: V34, one rejected draw and then an accepted one, with a wait and a command
behind. -/
theorem witness_NextbReturnsItsFirstAcceptedDraw :
    let s := presented (mb32Sampler 3 .modulo) 0x04 (on 0) [.wait, .command 0x06 (on 0)]
    s.phase = .idle ∧ s.host = .command 0x04#8 (on 0) :: [.wait, .command 0x06 (on 0)] ∧
    HostEvent.rst ∉ [HostEvent.wait, .command 0x06 (on 0)] ∧
    s.arch.svalid = true ∧ s.arch.range ≠ 0 ∧
    (∀ k, k < 1 → Rejects s.arch.range (drawOutput s.arch.src s.arch k)) ∧
    ¬ Rejects s.arch.range (drawOutput s.arch.src s.arch 1) := by
  refine ⟨rfl, rfl, by decide, rfl, by decide, ?_, ?_⟩
  · unfold Rejects; decide +kernel
  · unfold Rejects; decide +kernel

/-- NextbStaysBusyWhileEveryDrawIsRejected: V34's first draw, with a wait behind. -/
theorem witness_NextbStaysBusyWhileEveryDrawIsRejected :
    let s := presented (mb32Sampler 3 .oneill) 0x04 (on 0) [.wait]
    s.phase = .idle ∧ s.host = .command 0x04#8 (on 0) :: [.wait] ∧ HostEvent.rst ∉ [HostEvent.wait] ∧
    s.arch.svalid = true ∧ s.arch.range ≠ 0 ∧
    (∀ k, k ≤ 0 → Rejects s.arch.range (drawOutput s.arch.src s.arch k)) := by
  refine ⟨rfl, rfl, by decide, rfl, by decide, ?_⟩
  intro k hk
  rw [Nat.le_zero.mp hk]
  unfold Rejects
  decide +kernel

theorem witness_DrawIsTheSourceBanksNext :
    let s := idleWith (mb32Sampler 3 .modulo)
    s.arch.svalid = true ∧ s.arch.isSeeded s.arch.src.bank = true := by
  decide

/-- NextbResultsAreBelowTheRange, VariantIsNotObservableThroughNextb: an accepted first draw at range 4 (V34), and an
accepted redraw at range 3; for the latter also a block without a sampler. -/
theorem witness_NextbResults :
    (∃ t, (idleWith (mb32Sampler 4 .modulo)).arch.svalid = true ∧ (idleWith (mb32Sampler 4 .modulo)).arch.range ≠ 0 ∧
      t.completion = some { st := .ok, r := 0 } ∧ exec .nextb (idleWith (mb32Sampler 4 .modulo)) = .next t) ∧
    (∃ t, (busy []).arch.range ≠ 0 ∧ t.completion = some { st := .ok, r := 0 } ∧ redraw 1 (busy []) = .next t) ∧
    (idleWith blank).arch.svalid = false := by
  exact ⟨⟨_, rfl, by decide, by rfl, rfl⟩, ⟨_, by decide, by rfl, rfl⟩, rfl⟩

/-- SamplerEdgeCases: the clauses in order. Draws that are 0 come from `mb32Sampler` (V5, V6, V34); P3's fourth NEXTB has
a low half equal to the threshold, its first one equal to the range. -/
theorem witness_SamplerEdgeCases :
    ([(1 : W32), 0xFFFFFFFF, 0x80000000, 3, 4].map fun range =>
      (mb32Sampler range .modulo).svalid && range != 0 && (draw32 .mb32 (mb32Sampler range .modulo)).2 == 0) =
      [true, true, true, true, true] ∧
    (draw32 .xs32 (xs32Sampler 1 0xFFFFFFFF .oneill)).2 ≠ 0 ∧
    ((1 : W32).toNat = 2 ^ 0 ∧ (0x80000000 : W32).toNat = 2 ^ 31) ∧
    (((draw32 .xs32 (xs32Sampler 0x9DCCA8C5 0xC0000000 .modulo)).2.toNat * 0xC0000000) % 2 ^ 32 =
      idealThreshold 0xC0000000) ∧
    (((draw32 .xs32 (xs32Sampler 1 0xC0000000 .modulo)).2.toNat * 0xC0000000) % 2 ^ 32 = (0xC0000000 : W32).toNat) ∧
    idealThreshold 4 = 0 ∧ idealThreshold 3 ≠ 0 := by
  decide +kernel

/-- NextbDependsOnRangeAndSourceOnly: two states that differ in VAR, in another bank, in ports and flags; a first draw
and a later one. -/
theorem witness_NextbDependsOnRangeAndSourceOnly :
    let s := idleWith (mb32Sampler 3 .modulo)
    let u := idleWith { mb32Sampler 3 .oneill with xs32 := 5, gvalid := 0x81 } (on 9)
    (s.arch.range = u.arch.range ∧ s.arch.src = u.arch.src ∧
      s.arch.words s.arch.src.bank = u.arch.words s.arch.src.bank) ∧
    (∃ s' u', s.arch.svalid = true ∧ u.arch.svalid = true ∧ s.arch.range ≠ 0 ∧
      exec .nextb s = .next s' ∧ exec .nextb u = .next u') ∧
    (∃ s' u', redraw 1 s = .next s' ∧ redraw 1 u = .next u') := by
  exact ⟨⟨rfl, rfl, rfl⟩, ⟨_, _, rfl, rfl, by decide, rfl, rfl⟩, ⟨_, _, rfl, rfl⟩⟩

theorem witness_ConversionsArePure : Instr.cvtD52 ∈ [Instr.cvtMul, .cvtBitcast, .cvtD32, .cvtD52] ∧
    (idleWith blank (on 7)).ports = on 7 := by
  decide

/-- ExactF64IsExact: zero, one, the largest significand; both ends of the scale. -/
theorem witness_ExactF64IsExact :
    (0 < 2 ^ 53 ∧ 0 ≤ 64) ∧ (1 < 2 ^ 53 ∧ 64 ≤ 64 ∧ 1 ≠ 0) ∧ (2 ^ 53 - 1 < 2 ^ 53 ∧ 2 ^ 53 - 1 ≠ 0) := by
  decide

theorem witness_ConversionResultsLieInTheUnitInterval :
    ∃ t, Instr.cvtD32 ∈ [Instr.cvtMul, .cvtBitcast, .cvtD32, .cvtD52] ∧
      exec .cvtD32 (idleWith blank (on 0x80000000)) = .next t ∧ t.completion = some { st := .ok, r := 0 } := by
  exact ⟨_, by decide, rfl, by rfl⟩

/-- ConversionResultSets: numerators at both ends, an odd one for CVT.D52. -/
theorem witness_ConversionResultSets :
    (toDoubleMul 0 = exactF64 0 53 ∧ 0 < 2 ^ 53) ∧ (toDoubleBitcast 0xFFFFFFFFFFFFFFFF = exactF64 (2 ^ 52 - 1) 52) ∧
    toDoubleD32 config 0x80000000 = exactF64 0 32 ∧
    (toDoubleD52 config 0x7FFFFFFF (low20 0xFFFFFFFF) = exactF64 (2 ^ 53 - 1) 53 ∧ (2 ^ 53 - 1) % 2 = 1) := by
  decide +kernel

/-- FailingCommandsChangeNothing: a failing SCFG, and a step that takes an illegal word. -/
theorem witness_FailingCommandsChangeNothing :
    (∃ t c, exec (.scfg .xs32 .modulo) (idleWith { blank with gvalid := 1 }) = .next t ∧ t.completion = some c ∧
      c.st ≠ .ok) ∧
    (∃ t c, step (presented blank 0x13) = .next t ∧ t.completion = some c ∧ c.st ≠ .ok) := by
  exact ⟨⟨_, _, rfl, by rfl, by decide⟩, ⟨_, _, rfl, by rfl, by decide⟩⟩

theorem witness_GvalidIsSetBySeedAndClearedByReset :
    (∃ t, exec .seedXsp (idleWith blank (on 0 1)) = .next t) ∧ (∃ t, redraw 1 (busy []) = .next t) ∧
    (∃ t, (busy [.rst]).host = .rst :: [] ∧ step (busy [.rst]) = .next t) := by
  exact ⟨⟨_, rfl⟩, ⟨_, rfl⟩, ⟨_, rfl, rfl⟩⟩

/-- CommandsWriteOnlyTheBankTheyName: a SEED, a NEXTB and a later draw of one, and a bank each does not name. -/
theorem witness_CommandsWriteOnlyTheBankTheyName :
    (∃ t, exec .seedXsp (idleWith blank (on 0 1)) = .next t ∧
      namedBank (idleWith blank (on 0 1)).arch .seedXsp ≠ some .xs64) ∧
    (∃ t, exec .nextb (idleWith (mb32Sampler 3 .modulo)) = .next t ∧
      namedBank (idleWith (mb32Sampler 3 .modulo)).arch .nextb ≠ some .xs32) ∧
    (∃ t, redraw 1 (busy []) = .next t ∧ Bank.xs32 ≠ (busy []).arch.src.bank) := by
  exact ⟨⟨_, rfl, by decide⟩, ⟨_, rfl, by decide⟩, ⟨_, rfl, by decide⟩⟩

/-- NextReadsOnlyItsOwnBank: two states that differ in another bank, in ports, and in the sampler. -/
theorem witness_NextReadsOnlyItsOwnBank :
    let s := idleWith { blank with xs128 := { x := 1, y := 2, z := 3, w := 4 }, gvalid := 4 }
    let u := idleWith { xs32Sampler 1 7 .oneill with xs128 := { x := 1, y := 2, z := 3, w := 4 }, gvalid := 5 } (on 9)
    ∃ s' u', s.arch.words .xs128 = u.arch.words .xs128 ∧ s.arch.isSeeded .xs128 = true ∧
      u.arch.isSeeded .xs128 = true ∧ exec (nextInstr .xs128) s = .next s' ∧ exec (nextInstr .xs128) u = .next u' := by
  exact ⟨_, _, rfl, rfl, rfl, rfl, rfl⟩

/-- OnlyScfgWritesTheSampler: a NEXTB and a later draw of one. -/
theorem witness_OnlyScfgWritesTheSampler :
    (∃ t, exec .nextb (idleWith (mb32Sampler 3 .modulo)) = .next t ∧ ∀ src var, Instr.nextb ≠ .scfg src var) ∧
    (∃ t, redraw 1 (busy []) = .next t) := by
  exact ⟨⟨_, rfl, by simp⟩, ⟨_, rfl⟩⟩

/-- A busy block that meets the sampler's invariant. -/
theorem busy_samplerInv (host : List HostEvent) : (busy host).SamplerInv := by
  have range : (3 : W32) ≠ 0 ∧ (1 : W32) = threshold .modulo 3 := by decide
  have seeded : (mb32Sampler 3 .modulo).isSeeded .mb32 = true := by decide
  refine ⟨⟨fun _ => ⟨seeded, range.1⟩, fun h => by cases h⟩, ?_⟩
  intro t h
  cases h
  exact ⟨rfl, range.2, rfl⟩

theorem witness_StepsKeepTheSamplerInvariant : ∃ t, (busy []).SamplerInv ∧ step (busy []) = .next t := by
  exact ⟨_, busy_samplerInv _, rfl⟩

theorem witness_StepsKeepValidBanksNonzero :
    ∃ t, (presented (xs32Sampler 1 3 .modulo) 0x02).arch.NonzeroOk ∧
      step (presented (xs32Sampler 1 3 .modulo) 0x02) = .next t := by
  refine ⟨_, ⟨?_, ?_, ?_, ?_, ?_, ?_⟩, rfl⟩ <;> decide

/-- UnseededContentsAreNotObservable: two busy blocks that differ in a bank that holds no generator and in the model's
counter; and two idle ones that have just failed with different results. -/
theorem witness_UnseededContentsAreNotObservable :
    (let s := busy []
     let u := { busy [] with arch := { (busy []).arch with xs64 := 0xDEAD }, freeCount := 7 }
     ∃ s' u', s.SamplerInv ∧ s ≠ u ∧ s.SameButUnseeded u ∧ step s = .next s' ∧ step u = .next u') ∧
    SameCompletion (some { st := .zeroSeed, r := 0 }) (some { st := .zeroSeed, r := 1 }) := by
  refine ⟨⟨_, _, busy_samplerInv _, by decide, ?_, rfl, rfl⟩, rfl, by simp⟩
  refine ⟨⟨rfl, rfl, rfl, rfl, rfl⟩, ?_, rfl, rfl, trivial, rfl⟩
  intro b
  cases b <;> decide

/-- PseudoInstructionsRunAsTheirExpansions: each expansion, with something on the ports no command reads; a seeded bank
and an empty one. -/
theorem witness_PseudoInstructionsRunAsTheirExpansions :
    (let s := { idleWith { blank with xo128 := { s0 := 1, s1 := 2, s2 := 3, s3 := 4 }, gvalid := 0x10 } with
      host := expand (on 5 6 7 8) (on 9) (.next2 .xo128) }
     s.phase = .idle ∧ s.host = expand (on 5 6 7 8) (on 9) (.next2 .xo128) ∧
      s.arch.isSeeded Source.xo128.bank = true ∧ s.arch.isSeeded Source.xs32.bank = false) ∧
    (presented blank 0x23 (on 100 6)).host = expand (on 5 6) (on 9) (.scfgMod .xs128 100) ∧
    (presented blank 0xA3 (on 100 6)).host = expand (on 5 6) (on 9) (.scfgOneill .xs128 100) := by
  exact ⟨⟨rfl, rfl, rfl, rfl⟩, rfl, rfl⟩

theorem witness_InstancesShareNothing :
    ∃ sys', System.stepAt 1 [idleWith blank, presented blank 0x06] = .next sys' ∧ (0 : Nat) ≠ 1 := by
  exact ⟨_, rfl, by decide⟩

end Sys2Proof.Tests
end

section
/-! SUPPORT. The first reset (10_state.md R34). -/

namespace Sys2Proof.Machine

/-- The first reset is a reset like any other: it draws free value 0 (R230, R231). -/
@[simp] theorem State.reset_arch : State.reset.arch = Arch.reset 0 := rfl

/-- Settles O10: each value is the one every reset leaves, and `SRC` and `VAR` are encoded as 0. -/
theorem resetStateHoldsTheSpecifiedValues : Obligations.ResetStateHoldsTheSpecifiedValues := by
  unfold Obligations.ResetStateHoldsTheSpecifiedValues
  rw [State.reset_arch]
  refine ⟨Arch.reset_gvalid 0, Arch.reset_svalid 0, Arch.reset_range 0, ?src, ?var⟩
  case src => rw [Arch.reset_src]; rfl
  case var => rw [Arch.reset_var]; rfl

end Sys2Proof.Machine
end

section
/-! SUPPORT. Words whose low four bits name no operation (30_encoding.md R71, R72). -/

namespace Sys2Proof.Machine

/-- R71, R78: the operation field is looked at first, so the rest of such a word does not matter. -/
theorem decode_of_unassigned_opcode {w : W8} (h : opField w = 0 ∨ 7 ≤ opField w) : decode w = .error .opcode := by
  have unassigned : (opField w).toNat = 0 ∨ 7 ≤ (opField w).toNat := by
    rcases h with zero | high
    · exact .inl (by rw [zero]; rfl)
    · exact .inr (BitVec.le_def.mp high)
  unfold decode
  split
  case h_7 => rfl
  all_goals omega

theorem decode_ne_ok_of_unassigned_opcode {w : W8} (h : opField w = 0 ∨ 7 ≤ opField w) (i : Instr) :
    decode w ≠ .ok i := by
  rw [decode_of_unassigned_opcode h]
  exact nofun

/-- Settles O3: the all-zero word has operation field 0, the all-ones word 15, and neither is assigned. -/
theorem stuckCommandPortIsIllegal : Obligations.StuckCommandPortIsIllegal := by
  unfold Obligations.StuckCommandPortIsIllegal
  have zeros : opField 0x00#8 = 0 := by decide
  have ones : 7 ≤ opField 0xFF#8 := by decide
  exact ⟨decode_ne_ok_of_unassigned_opcode (.inl zeros), decode_ne_ok_of_unassigned_opcode (.inr ones)⟩

end Sys2Proof.Machine
end

section
/-! SUPPORT. The conversions that scale an integer by a power of two (40_conversions.md R102, R104): every constant is an
integer times a power of two and every intermediate result is exact, so RR's formulas and `exact_f64` agree. -/

namespace Sys2Proof.Machine

theorem f64TwoPowNeg53_eq_dyadic : f64TwoPowNeg53 = dyadic 1 (-53) := by decide

theorem f64TwoPowNeg32_eq_dyadic : f64TwoPowNeg32 = dyadic 1 (-32) := by decide

/-- The default `D32_OFFSET`, 0.5 (R9, R104), counted in units of `2^-32` as the product it is added to is. -/
theorem d32Offset_eq_dyadic : config.d32Offset = dyadic (2 ^ 31) (-32) := by decide

/-- Scaling an integer by a power of two is exact. -/
theorem f64Mul_intToF64_twoPow {i e : Int} (hi : i.natAbs < 2 ^ 53) (he : -500 ≤ e ∧ e ≤ 500) :
    f64Mul (intToF64 i) (dyadic 1 e) = dyadic i e := by
  rw [intToF64_eq_dyadic, f64Mul_dyadic hi (by decide) (by rwa [mul_one]) one_pos (by decide) he, mul_one, zero_add]

/-- R102: RR's formula is `exact_f64` on every integer it can meet. -/
theorem f64Mul_twoPowNeg53_eq_exactF64 {n : Nat} (hn : n < 2 ^ 53) :
    f64Mul (intToF64 n) f64TwoPowNeg53 = exactF64 n 53 := by
  rw [f64TwoPowNeg53_eq_dyadic, f64Mul_intToF64_twoPow (by rwa [Int.natAbs_natCast]) (by decide),
    exactF64_eq_dyadic hn (by decide)]
  rfl

/-- R102: the conversion is exact on the high 53 bits of its operand. -/
theorem toDoubleMul_eq_exactF64 (x : W64) : toDoubleMul x = exactF64 (x.toNat / 2 ^ 11) 53 := by
  have hn : (x >>> 11).toNat = x.toNat / 2 ^ 11 := by rw [BitVec.toNat_ushiftRight, Nat.shiftRight_eq_div_pow]
  unfold toDoubleMul
  rw [hn, f64Mul_twoPowNeg53_eq_exactF64 (by omega)]

theorem exec_cvtMul (s : State) : exec .cvtMul s = complete s.arch (toDoubleMul s.ports.a) s := rfl

/-- Settles O42: the scaled integer is below `2^53`, so the product is exact. -/
theorem cvtMulIsExact : Obligations.CvtMulIsExact := by
  unfold Obligations.CvtMulIsExact
  refine ⟨by decide, fun s => ⟨?performed, ?formula⟩⟩
  case performed =>
    rw [exec_cvtMul, toDoubleMul_eq_exactF64]
    exact performedWith_complete _ _ _
  case formula => exact f64Mul_twoPowNeg53_eq_exactF64 (by omega)

/-- R104: at offset 0.5, the conversion is exact on the operand with its top bit turned, which is `iRan1 + 2^31`. The
product is at least `-2^31` units of `2^-32` and below `2^31` of them, so the sum is exact and not negative. -/
theorem toDoubleD32_eq_exactF64 (x : W32) : toDoubleD32 config x = exactF64 (x ^^^ 0x80000000#32).toNat 32 := by
  have hu := toNat_xor_topBit x
  have hlt := (x ^^^ 0x80000000#32).isLt
  have hs : (s32 x).natAbs < 2 ^ 53 := by omega
  calc toDoubleD32 config x
      = f64Add (f64Mul (intToF64 (s32 x)) (dyadic 1 (-32))) (dyadic (2 ^ 31) (-32)) := by
        rw [toDoubleD32, d32Offset_eq_dyadic, f64TwoPowNeg32_eq_dyadic]
    _ = f64Add (dyadic (s32 x) (-32)) (dyadic (2 ^ 31) (-32)) := by
        rw [f64Mul_intToF64_twoPow hs (by decide)]
    _ = dyadic (s32 x + 2 ^ 31) (-32) := f64Add_dyadic hs (by decide) (by omega) (by decide)
    _ = exactF64 (x ^^^ 0x80000000#32).toNat 32 := by
        rw [← hu, exactF64_eq_dyadic (by omega) (by decide)]
        rfl

theorem exec_cvtD32 (s : State) : exec .cvtD32 s = complete s.arch (toDoubleD32 config (low32 s.ports.a)) s := rfl

/-- Settles O44: the formula is RR's at the default offset, and only the low half of `a` enters it. -/
theorem cvtD32IsExact : Obligations.CvtD32IsExact := by
  unfold Obligations.CvtD32IsExact
  refine ⟨by decide, rfl, fun s => ⟨?unsigned, ?performed, ?formula⟩⟩
  case unsigned => rw [← s32_eq_toInt]; exact toNat_xor_topBit _
  case performed =>
    rw [exec_cvtD32, toDoubleD32_eq_exactF64]
    exact performedWith_complete _ _ _
  case formula => rw [← s32_eq_toInt]; exact toDoubleD32_eq_exactF64 _

end Sys2Proof.Machine
end

section
/-! SUPPORT. SEED of every bank (41_xorshift.md R120): performed exactly when some seed word is not zero. -/

namespace Sys2Proof.Machine

theorem performedWith_seedBank {b : Bank} {zero : Bool} {allZero : Prop} {w : Arch} {s : State}
    (hz : zero = true ↔ allZero) (h : ¬ allZero) :
    PerformedWith (w.markSeeded b) 0 s (seedBank b zero w s) :=
  performedWith_iff.mpr (seedBank_nonzero (Bool.eq_false_iff.mpr (mt hz.mp h)))

theorem failsWith_seedBank {b : Bank} {zero : Bool} {allZero : Prop} {w : Arch} {s : State}
    (hz : zero = true ↔ allZero) (h : allZero) : FailsWith .zeroSeed s (seedBank b zero w s) := by
  rw [seedBank_zero (hz.mpr h)]
  exact failsWith_fail _ _

theorem twoWords_zero_iff {n : Nat} {x y : BitVec n} : (x == 0 && y == 0) = true ↔ x = 0 ∧ y = 0 := by simp

theorem fourWords_zero_iff {n : Nat} {x y z w : BitVec n} :
    (x == 0 && y == 0 && z == 0 && w == 0) = true ↔ x = 0 ∧ y = 0 ∧ z = 0 ∧ w = 0 := by simp [and_assoc]

/-- R120: SEED of any bank stores the words, sets the flag and returns 0 when a seed word is not zero. -/
theorem performedWith_exec_seed {b : Bank} {s : State} (h : Ready (seedInstr b) s) :
    PerformedWith (performed (seedInstr b) s) 0 s (exec (seedInstr b) s) := by
  cases b with
  | xs32 | xs64 | sm64 | mb32 => exact performedWith_seedBank beq_iff_eq h
  | xsp => exact performedWith_seedBank twoWords_zero_iff h
  | xs128 | xo128 | xo256 => exact performedWith_seedBank fourWords_zero_iff h

/-- R120: SEED of any bank fails when all of its seed words are zero. -/
theorem failsWith_exec_seed {b : Bank} {s : State} (h : ¬ Ready (seedInstr b) s) :
    FailsWith .zeroSeed s (exec (seedInstr b) s) := by
  cases b with
  | xs32 | xs64 | sm64 | mb32 => exact failsWith_seedBank beq_iff_eq (not_not.mp h)
  | xsp => exact failsWith_seedBank twoWords_zero_iff (not_not.mp h)
  | xs128 | xo128 | xo256 => exact failsWith_seedBank fourWords_zero_iff (not_not.mp h)

/-- Settles O12: what `performed` and `Ready` say of the four SEEDs of one word. -/
theorem seedOneWordBanksStoreTheSeed : Obligations.SeedOneWordBanksStoreTheSeed := by
  unfold Obligations.SeedOneWordBanksStoreTheSeed
  exact ⟨⟨rfl, rfl, rfl, rfl⟩, fun _ =>
    ⟨performedWith_exec_seed (b := .xs32), fun zero => failsWith_exec_seed (b := .xs32) (not_not_intro zero),
      performedWith_exec_seed (b := .xs64), fun zero => failsWith_exec_seed (b := .xs64) (not_not_intro zero),
      performedWith_exec_seed (b := .sm64), fun zero => failsWith_exec_seed (b := .sm64) (not_not_intro zero),
      performedWith_exec_seed (b := .mb32), fun zero => failsWith_exec_seed (b := .mb32) (not_not_intro zero)⟩⟩

/-- Settles O13: what `performed` and `Ready` say of the four SEEDs of several words. -/
theorem seedManyWordBanksStoreTheSeed : Obligations.SeedManyWordBanksStoreTheSeed := by
  unfold Obligations.SeedManyWordBanksStoreTheSeed
  exact ⟨⟨rfl, rfl, rfl, rfl⟩, fun _ =>
    ⟨performedWith_exec_seed (b := .xs128), fun zero => failsWith_exec_seed (b := .xs128) (not_not_intro zero),
      performedWith_exec_seed (b := .xsp), fun zero => failsWith_exec_seed (b := .xsp) (not_not_intro zero),
      performedWith_exec_seed (b := .xo128), fun zero => failsWith_exec_seed (b := .xo128) (not_not_intro zero),
      performedWith_exec_seed (b := .xo256), fun zero => failsWith_exec_seed (b := .xo256) (not_not_intro zero)⟩⟩

end Sys2Proof.Machine
end

section
/-! SUPPORT. NEXT of the xorshift banks (41_xorshift.md R121): performed exactly when the bank is seeded. -/

namespace Sys2Proof.Machine

theorem performedWith_nextBank {b : Bank} {r : Arch} {v : W64} {s : State} (h : s.arch.isSeeded b = true) :
    PerformedWith r v s (nextBank b r v s) := performedWith_iff.mpr (nextBank_seeded h)

theorem failsWith_nextBank {b : Bank} {r : Arch} {v : W64} {s : State} (h : s.arch.isSeeded b = false) :
    FailsWith .notSeeded s (nextBank b r v s) := by
  rw [nextBank_empty h]
  exact failsWith_fail _ _

theorem exec_nextXs32 (s : State) :
    exec .nextXs32 s =
      nextBank .xs32 { s.arch with xs32 := xs32Step s.arch.xs32 } (zext64 (xs32Step s.arch.xs32)) s := rfl

theorem exec_nextXs64 (s : State) :
    exec .nextXs64 s = nextBank .xs64 { s.arch with xs64 := xs64Step s.arch.xs64 } (xs64Step s.arch.xs64) s := rfl

/-- Settles O14: the three lines of R123 are the three xorshifts of `xs32Step`. -/
theorem nextXs32StepsByThirteenSeventeenFive : Obligations.NextXs32StepsByThirteenSeventeenFive := by
  unfold Obligations.NextXs32StepsByThirteenSeventeenFive
  refine ⟨rfl, fun s => ?_⟩
  intro x0 x1 x2 x3
  have stepped : xs32Step x0 = x3 := rfl
  rw [exec_nextXs32, stepped]
  exact ⟨fun seeded => performedWith_nextBank seeded, fun empty => failsWith_nextBank empty⟩

/-- Settles O15: the three lines of R125 are the three xorshifts of `xs64Step`. -/
theorem nextXs64StepsByThirteenSevenSeventeen : Obligations.NextXs64StepsByThirteenSevenSeventeen := by
  unfold Obligations.NextXs64StepsByThirteenSevenSeventeen
  refine ⟨rfl, fun s => ?_⟩
  intro x0 x1 x2 x3
  have stepped : xs64Step x0 = x3 := rfl
  rw [exec_nextXs64, stepped]
  exact ⟨fun seeded => performedWith_nextBank seeded, fun empty => failsWith_nextBank empty⟩

end Sys2Proof.Machine
end

section
/-! SUPPORT. SCFG with a source the encoding allows (44_bounded_sampler.md R161), the cases of `execScfg_bank` one by one;
and the SCFG words the encoding does not allow (30_encoding.md R78). -/

namespace Sys2Proof.Machine

theorem exec_scfg (src : Bank) (var : Variant) (s : State) : exec (.scfg src var) s = execScfg src var s := rfl

theorem performedWith_exec_scfg {src : Source} {s : State} (var : Variant)
    (seeded : s.arch.isSeeded src.bank = true) (nonzero : low32 s.ports.a ≠ 0) :
    PerformedWith { s.arch with range := low32 s.ports.a, src := src, var := var, svalid := true } 0 s
      (exec (.scfg src.bank var) s) := by
  rw [exec_scfg, execScfg_bank, if_pos seeded, if_neg nonzero]
  exact performedWith_complete _ _ _

/-- R205: the seeding of the source is looked at before the range. -/
theorem failsWith_exec_scfg_notSeeded {src : Source} {s : State} (var : Variant)
    (empty : s.arch.isSeeded src.bank = false) : FailsWith .notSeeded s (exec (.scfg src.bank var) s) := by
  rw [exec_scfg, execScfg_bank, if_neg (Bool.eq_false_iff.mp empty)]
  exact failsWith_fail _ _

theorem failsWith_exec_scfg_zeroRange {src : Source} {s : State} (var : Variant)
    (seeded : s.arch.isSeeded src.bank = true) (zero : low32 s.ports.a = 0) :
    FailsWith .zeroRange s (exec (.scfg src.bank var) s) := by
  rw [exec_scfg, execScfg_bank, if_pos seeded, if_pos zero]
  exact failsWith_fail _ _

/-- R78 (c): an SCFG word that names a bank with a 64-bit output is illegal, whatever its variant bit. -/
theorem decode_of_wide_source {w : W8} (op : opField w = 3) (wide : (bankOfCode (selField w)).source? = none) :
    decode w = .error .sourceBank := by
  simp [decode, op, wide]

/-- Settles O27: one lemma a clause; `GVALID` is looked at in the bit of the source's code, and the four codes of the last
clause are the banks with a 64-bit output. -/
theorem scfgConstructsTheSampler : Obligations.ScfgConstructsTheSampler := by
  unfold Obligations.ScfgConstructsTheSampler
  refine ⟨by decide, ?effect, ?illegalSource⟩
  case effect =>
    intro s src var range seeded
    have flag : s.arch.isSeeded src.bank = seeded := by cases src <;> rfl
    rw [← flag]
    exact ⟨performedWith_exec_scfg var, failsWith_exec_scfg_notSeeded var, failsWith_exec_scfg_zeroRange var⟩
  case illegalSource =>
    intro w op sel i
    have wide : ∀ code ∈ [1#3, 3#3, 5#3, 6#3], (bankOfCode code).source? = none := by decide
    rw [decode_of_wide_source op (wide _ sel)]
    exact nofun

end Sys2Proof.Machine
end

section
/-! SUPPORT. The threshold procedures (44_bounded_sampler.md R162 to R164, R168): O'Neill's subtracts the range once where
the remainder would, so both are one remainder of the negated range, which is `2^32 mod R`. -/

namespace Sys2Proof.Machine

/-- Subtracting the divisor once leaves the remainder. -/
theorem sub_umod_self_of_le {w : Nat} {t range : BitVec w} (h : range ≤ t) : (t - range) % range = t % range := by
  apply BitVec.eq_of_toNat_eq
  rw [BitVec.toNat_umod, BitVec.toNat_umod, BitVec.toNat_sub_of_le h, ← Nat.mod_eq_sub_mod (BitVec.le_def.mp h)]

/-- R168: the two procedures agree on every range. A branch of `threshold1` that takes no remainder has a value below the
range, which is its own remainder. -/
theorem threshold1_eq_threshold0 (range : W32) : threshold1 range = threshold0 range := by
  have own {t : W32} (below : ¬ range ≤ t) : t = t % range := (BitVec.umod_eq_of_lt (BitVec.not_le.mp below)).symm
  simp only [threshold1, threshold0]
  split
  next once =>
    rw [← sub_umod_self_of_le once]
    split
    next => rfl
    next below => exact own below
  next below => exact own below

/-- R163: the negation is `2^32 - R`, which an unsigned 32-bit register holds for a range of at least 1. -/
theorem threshold0_toNat {range : W32} (h : range ≠ 0) :
    (threshold0 range).toNat = (2 ^ 32 - range.toNat) % range.toNat := by
  rw [threshold0, BitVec.toNat_umod, BitVec.toNat_neg_of_pos ((BitVec.pos_iff_ne_zero _).mpr h)]

/-- R162: by either procedure the threshold is `2^32 mod R`. -/
theorem threshold_toNat {range : W32} (var : Variant) (h : range ≠ 0) :
    (threshold var range).toNat = idealThreshold range := by
  have remainder : (threshold0 range).toNat = idealThreshold range := by
    rw [threshold0_toNat h, idealThreshold, ← Nat.mod_eq_sub_mod range.isLt.le]
  cases var with
  | modulo => exact remainder
  | oneill => exact (congrArg BitVec.toNat (threshold1_eq_threshold0 range)).trans remainder

/-- Settles O28: the bounds are those of a remainder by `R` of `2^32 - R`. -/
theorem bothThresholdsAreTheIdealOne : Obligations.BothThresholdsAreTheIdealOne := by
  unfold Obligations.BothThresholdsAreTheIdealOne
  intro range h
  have value := threshold0_toNat h
  exact ⟨value, threshold_toNat .modulo h, threshold_toNat .oneill h,
    value.trans_lt (Nat.mod_lt _ (BitVec.toNat_pos_of_ne_zero h)), value.trans_le (Nat.mod_le _ _)⟩

end Sys2Proof.Machine
end

section
/-! SUPPORT. The sampler's invariant (10_state.md R27 to R30): its registers are right after whatever a command or a draw
leaves, and a NEXTB that goes on carries the threshold of its range (44_bounded_sampler.md R166). -/

namespace Sys2Proof.Machine

/-! ### The sampler's registers -/

/-- The sampler's registers are right or wrong by the flags and the registers themselves, not by what the banks hold. -/
theorem samplerOk_congr {r u : Arch} (h : r.SameControl u) : r.SamplerOk ↔ u.SamplerOk := by
  obtain ⟨gvalid, range, src, var, svalid⟩ := h
  rw [Arch.SamplerOk, Arch.SamplerOk, isSeeded_congr gvalid, range, src, var, svalid]

/-- SEED sets a flag and clears none, so a seeded source stays seeded. -/
theorem samplerOk_markSeeded {r : Arch} (b : Bank) (h : r.SamplerOk) : (r.markSeeded b).SamplerOk := by
  obtain ⟨constructed, unconstructed⟩ := h
  refine ⟨fun valid => ?_, unconstructed⟩
  obtain ⟨seeded, nonzero⟩ := constructed valid
  exact ⟨by simp [seeded], nonzero⟩

theorem samplerOk_reset (n : Nat) : (Arch.reset n).SamplerOk := ⟨nofun, fun _ => ⟨rfl, rfl, rfl⟩⟩

theorem Bank.source?_eq_some {b : Bank} {src : Source} (h : b.source? = some src) : src.bank = b := by
  cases b <;> cases h <;> rfl

/-- R161: SCFG is performed only on a seeded source and a range of at least 1. Every other command leaves the sampler's
registers and clears no flag. -/
theorem samplerOk_performed {i : Instr} {s : State} (h : s.arch.SamplerOk) (ready : Ready i s) :
    (performed i s).SamplerOk := by
  cases i with
  | seedXs32 | seedXs64 | seedXs128 | seedXsp | seedXo128 | seedXo256 | seedSm64 | seedMb32 =>
    exact samplerOk_markSeeded _ h
  | nextXs32 => exact (samplerOk_congr (advanceXs32_control _)).mpr h
  | nextXs64 => exact (samplerOk_congr (advanceXs64_control _)).mpr h
  | nextXs128 => exact (samplerOk_congr (advanceXs128_control _)).mpr h
  | nextXsp => exact (samplerOk_congr (advanceXsp_control _)).mpr h
  | nextXo128 => exact (samplerOk_congr (advanceXo128_control _)).mpr h
  | nextXo256 => exact (samplerOk_congr (advanceXo256_control _)).mpr h
  | nextSm64 => exact (samplerOk_congr (advanceSm64_control _)).mpr h
  | nextMb32 => exact (samplerOk_congr (advanceMb32_control _)).mpr h
  | nextb => exact (samplerOk_congr (draw32_control _ _)).mpr h
  | scfg src var =>
    obtain ⟨legal, seeded, nonzero⟩ := ready
    obtain ⟨source, hsource⟩ := Option.isSome_iff_exists.mp legal
    rw [← Bank.source?_eq_some hsource] at seeded
    simp only [performed, hsource]
    exact ⟨fun _ => ⟨seeded, nonzero⟩, nofun⟩
  | cvtMul | cvtBitcast | cvtD32 | cvtD52 | stat => exact h

/-! ### The loop -/

theorem samplerInv_of_idle {s : State} (h : s.arch.SamplerOk) (idle : s.phase = .idle) : s.SamplerInv :=
  ⟨h, fun t busy => by rw [idle] at busy; cases busy⟩

/-- A rejected draw leaves the registers the threshold was computed from, so it goes on being theirs. -/
theorem samplerInv_rejected {s : State} (h : s.arch.SamplerOk) (valid : s.arch.svalid = true) :
    (s.rejected (threshold s.arch.var s.arch.range) (draw32 s.arch.src s.arch).1).SamplerInv := by
  refine ⟨(samplerOk_congr (draw32_control _ _)).mpr h, fun t carried => ?_⟩
  obtain rfl : threshold s.arch.var s.arch.range = t := Phase.rejecting.inj carried
  simp [valid]

theorem samplerInv_exec {i : Instr} {s t : State} (ht : exec i s = .next t) (h : s.arch.SamplerOk) : t.SamplerInv := by
  rcases exec_cases ht with ⟨_, _, rfl, _⟩ | ⟨ready, _, rfl⟩ | ⟨ready, rfl, rfl⟩
  · exact samplerInv_of_idle h rfl
  · exact samplerInv_of_idle (samplerOk_performed h ready) rfl
  · exact samplerInv_rejected h ready

theorem samplerInv_redraw {limit : W32} {s t : State} (ht : redraw limit s = .next t) (h : s.SamplerInv)
    (busy : s.phase = .rejecting limit) : t.SamplerInv := by
  obtain ⟨registers, loop⟩ := h
  obtain ⟨valid, rfl, _⟩ := loop limit busy
  rcases redraw_cases ht with ⟨_, rfl⟩ | ⟨_, rfl⟩
  · exact samplerInv_rejected registers valid
  · exact samplerInv_of_idle ((samplerOk_congr (draw32_control _ _)).mpr registers) rfl

/-- Settles O56: each kind of step of `step_cases` keeps the registers right, and only a rejected draw leaves NEXTB
running. -/
theorem stepsKeepTheSamplerInvariant : Obligations.StepsKeepTheSamplerInvariant := by
  unfold Obligations.StepsKeepTheSamplerInvariant
  intro s t h ht
  have registers : s.arch.SamplerOk := h.1
  rcases step_cases ht with ⟨_, _, rfl⟩ | ⟨_, _, _, _, _, _, _, performs⟩ | ⟨_, _, _, _, _, _, _, rfl⟩ |
    ⟨_, _, busy, _, redraws⟩ | ⟨_, idle, rfl⟩
  · exact samplerInv_of_idle (samplerOk_reset _) rfl
  · exact samplerInv_exec performs registers
  · exact samplerInv_of_idle registers rfl
  · exact samplerInv_redraw redraws h busy
  · exact samplerInv_of_idle registers idle

end Sys2Proof.Machine
end

section
/-! SUPPORT. The status word, field by field (45_status.md R180): a field is found by passing over the fields below it. -/

namespace Sys2Proof.Machine

section
variable (r : Arch)

theorem statusWord_gvalid : (statusWord r).extractLsb' 0 8 = r.gvalid :=
  BitVec.extractLsb'_append_eq_right

theorem statusWord_svalid : (statusWord r).getLsbD 8 = r.svalid := by
  delta statusWord
  rw [BitVec.getLsbD_append, BitVec.getLsbD_append]
  simp

theorem statusWord_src : (statusWord r).extractLsb' 9 3 = bankCode r.src.bank := by
  delta statusWord
  repeat rw [BitVec.extractLsb'_append_eq_of_le (by decide)]
  exact BitVec.extractLsb'_append_eq_right

theorem statusWord_var : (statusWord r).extractLsb' 12 1 = variantBit r.var := by
  delta statusWord
  repeat rw [BitVec.extractLsb'_append_eq_of_le (by decide)]
  exact BitVec.extractLsb'_append_eq_right

theorem statusWord_zeros : (statusWord r).extractLsb' 13 19 = 0 := by
  delta statusWord
  repeat rw [BitVec.extractLsb'_append_eq_of_le (by decide)]
  exact BitVec.extractLsb'_append_eq_right

theorem statusWord_range : (statusWord r).extractLsb' 32 32 = r.range := by
  delta statusWord
  repeat rw [BitVec.extractLsb'_append_eq_of_le (by decide)]
  exact BitVec.extractLsb'_eq_self

end

theorem statusWord_reset (n : Nat) : statusWord (Arch.reset n) = 0 := by
  delta statusWord
  simp only [Arch.reset_gvalid, Arch.reset_range, Arch.reset_src, Arch.reset_var, Arch.reset_svalid]
  rfl

theorem exec_stat (s : State) : exec .stat s = complete s.arch (statusWord s.arch) s := rfl

/-- Settles O48: the result is the status word, of which each field has its lemma. -/
theorem statReportsFlagsAndSampler : Obligations.StatReportsFlagsAndSampler := by
  unfold Obligations.StatReportsFlagsAndSampler
  refine ⟨rfl, fun s => ⟨statusWord s.arch, performedWith_complete _ _ _, statusWord_gvalid _, statusWord_svalid _,
    ?src, ?var, statusWord_zeros _, statusWord_range _⟩, ?reset⟩
  case src =>
    rw [statusWord_src]
    cases s.arch.src <;> rfl
  case var =>
    rw [statusWord_var]
    cases s.arch.var <;> rfl
  case reset =>
    rw [exec_stat, State.reset_arch, statusWord_reset]
    exact performedWith_complete _ _ _

end Sys2Proof.Machine
end

section
/-! SUPPORT. Completions and their status codes (60_exceptions.md R201, R203): a status other than OK is presented by
`State.failed` alone. -/

namespace Sys2Proof.Machine

section
variable {i : Instr} {s t : State} {c : Completion}

/-- What was completed with OK presents OK. -/
theorem State.completed_status {r : Arch} {v : W64} (hc : (s.completed r v).completion = some c) : c.st = .ok := by
  rw [State.completed_completion] at hc
  cases hc
  rfl

/-- A later draw of NEXTB has no way to fail (R166). -/
theorem redraw_status {limit : W32} (ht : redraw limit s = .next t) (hc : t.completion = some c) : c.st = .ok := by
  rcases redraw_cases ht with ⟨_, rfl⟩ | ⟨_, rfl⟩
  · cases hc
  · exact State.completed_status hc

/-- A command that completes with a status other than OK leaves the state after that failure. -/
theorem exec_eq_failed (ht : exec i s = .next t) (hc : t.completion = some c) (bad : c.st ≠ .ok) :
    t = s.failed c.st := by
  rcases exec_cases ht with ⟨st, _, rfl, _⟩ | ⟨_, _, rfl⟩ | ⟨_, _, rfl⟩
  · cases hc
    rfl
  · exact absurd (State.completed_status hc) bad
  · cases hc

/-- A step that completes with a status other than OK has failed an accepted command word, legal or not; all it has taken
is that word and its operands. -/
theorem step_eq_failed (ht : step s = .next t) (hc : t.completion = some c) (bad : c.st ≠ .ok) :
    ∃ rest ports, t = { s with host := rest, ports := ports }.failed c.st := by
  rcases step_cases ht with ⟨_, _, rfl⟩ | ⟨_, ports, rest, _, _, _, _, performs⟩ | ⟨_, ports, rest, _, _, _, _, rfl⟩ |
    ⟨_, _, _, _, redraws⟩ | ⟨_, _, rfl⟩
  · cases hc
  · exact ⟨rest, ports, exec_eq_failed performs hc bad⟩
  · cases hc
    exact ⟨rest, ports, rfl⟩
  · exact absurd (redraw_status redraws hc) bad
  · cases hc

end

/-- Settles O50: what `State.failed` leaves of the state that the command, or the step, was given. -/
theorem failingCommandsChangeNothing : Obligations.FailingCommandsChangeNothing := by
  unfold Obligations.FailingCommandsChangeNothing
  refine ⟨fun i s t c ht hc bad => ?command, fun s t c ht hc bad => ?oneStep⟩
  case command =>
    rw [exec_eq_failed ht hc bad]
    exact ⟨State.failed_arch _ _, State.failed_phase _ _, State.failed_host _ _, State.failed_ports _ _⟩
  case oneStep =>
    obtain ⟨rest, ports, failed⟩ := step_eq_failed ht hc bad
    rw [failed]
    exact ⟨State.failed_arch _ _, State.failed_phase _ _⟩

/-- R201: the codes in use are 0 to 5. -/
theorem Status.code_le_five (st : Status) : st.code ≤ 5 := by cases st <;> decide

/-- Settles O49: the six codes are those of `Status.code`, and 6 and 7 lie above them all. -/
theorem statusCodesAreAsListed : Obligations.StatusCodesAreAsListed := by
  unfold Obligations.StatusCodesAreAsListed
  refine ⟨rfl, rfl, rfl, rfl, rfl, rfl, fun st => ?_⟩
  have used := st.code_le_five
  constructor <;> bv_omega

end Sys2Proof.Machine
end

section
/-! SUPPORT. Words and commands (30_encoding.md R70 to R75, R80): a word is its three fields, and each table of codes is
read back by the decoder's. -/

namespace Sys2Proof.Machine

/-! The tests above wait for the kernel all at once, and the stacks of their tasks take nearly all the memory a check of the
one text may use. So the first lemma here is elaborated in its turn, not beside them, and gives them the time to end; and the
first lemma of each section below is elaborated once what stands before it is checked, so that proofs do not pile up. -/

set_option Elab.async false in
set_option linter.unusedTactic false in
/-- R70: the three fields are the whole word, so no bit of it is dropped. -/
theorem commandWord_fields (w : W8) : commandWord (BitVec.ofBool (vField w)) (selField w) (opField w) = w := by
  sleep 15000
  apply BitVec.eq_of_getLsbD_eq
  intro i hi
  simp only [commandWord, vField, selField, opField, BitVec.getLsbD_append, BitVec.getLsbD_extractLsb',
    BitVec.getLsbD_ofBool]
  interval_cases i <;> simp

theorem opField_eq {w : W8} {op : Nat} (hop : (opField w).toNat = op) : opField w = BitVec.ofNat 4 op := by
  rw [← hop]
  simp

/-- A word under an opcode that has no variant, with its variant bit 0. -/
theorem commandWord_of_plain {w : W8} {op : Nat} (hop : (opField w).toNat = op) (plain : vField w = false) :
    commandWord 0 (selField w) (BitVec.ofNat 4 op) = w := by
  have word := commandWord_fields w
  rwa [plain, opField_eq hop] at word

/-- R73: the codes number the banks. -/
@[simp] theorem bankCode_bankOfCode (c : BitVec 3) : bankCode (bankOfCode c) = c := by
  revert c
  decide

theorem encode_seedInstr (b : Bank) : encode (seedInstr b) = commandWord 0 (bankCode b) 0x1 := by cases b <;> rfl

theorem encode_nextInstr (b : Bank) : encode (nextInstr b) = commandWord 0 (bankCode b) 0x2 := by cases b <;> rfl

theorem wellFormed_seedInstr (b : Bank) : (seedInstr b).wellFormed = true := by cases b <;> rfl

theorem wellFormed_nextInstr (b : Bank) : (nextInstr b).wellFormed = true := by cases b <;> rfl

/-- R74: a function code that names a conversion is the code of that conversion. -/
theorem encode_of_cvtInstr {sel : BitVec 3} {i : Instr} (h : cvtInstr sel = .ok i) :
    i.wellFormed = true ∧ encode i = commandWord 0 sel 0x5 := by
  have table : ∀ code : BitVec 3, ∀ j ∈ (cvtInstr code).toOption,
      j.wellFormed = true ∧ encode j = commandWord 0 code 0x5 := by decide
  exact table sel i (by rw [h]; rfl)

theorem variantBit_variantOfBit (v : Bool) : variantBit (variantOfBit v) = BitVec.ofBool v := by cases v <;> rfl

/-- A check of the decoder that was passed. -/
theorem ok_of_ite_error {c : Bool} {e : IllegalWord} {o : Except IllegalWord Instr} {i : Instr}
    (h : (if c then .error e else o) = .ok i) : c = false ∧ o = .ok i := by
  cases c
  · exact ⟨rfl, h⟩
  · cases h

theorem ok_of_ite_ok {p : Prop} [Decidable p] {e : IllegalWord} {i j : Instr}
    (h : (if p then .ok j else .error e) = Except.ok i) : p ∧ j = i := by
  split at h
  next hp => exact ⟨hp, Except.ok.inj h⟩
  next => cases h

/-- R80, the procedure run forwards: what it answers is well formed, and its encoding has the word's own fields. -/
theorem encode_of_decode {w : W8} {i : Instr} (h : decode w = .ok i) : i.wellFormed = true ∧ encode i = w := by
  unfold decode at h
  split at h <;> rename_i hop
  case h_1 =>
    obtain ⟨plain, ⟨⟩⟩ := ok_of_ite_error h
    refine ⟨wellFormed_seedInstr _, ?_⟩
    rw [encode_seedInstr, bankCode_bankOfCode]
    exact commandWord_of_plain hop plain
  case h_2 =>
    obtain ⟨plain, ⟨⟩⟩ := ok_of_ite_error h
    refine ⟨wellFormed_nextInstr _, ?_⟩
    rw [encode_nextInstr, bankCode_bankOfCode]
    exact commandWord_of_plain hop plain
  case h_3 =>
    split at h <;> cases h
    next source legal =>
      refine ⟨Option.isSome_iff_exists.mpr ⟨source, legal⟩, ?_⟩
      have word := commandWord_fields w
      rwa [opField_eq hop, ← variantBit_variantOfBit, ← bankCode_bankOfCode (selField w)] at word
  case h_4 =>
    obtain ⟨plain, nextb⟩ := ok_of_ite_error h
    obtain ⟨sel, rfl⟩ := ok_of_ite_ok nextb
    have word := commandWord_of_plain hop plain
    rw [sel] at word
    exact ⟨rfl, word⟩
  case h_5 =>
    obtain ⟨plain, cvt⟩ := ok_of_ite_error h
    rw [← commandWord_of_plain hop plain]
    exact encode_of_cvtInstr cvt
  case h_6 =>
    obtain ⟨plain, stat⟩ := ok_of_ite_error h
    obtain ⟨sel, rfl⟩ := ok_of_ite_ok stat
    have word := commandWord_of_plain hop plain
    rw [sel] at word
    exact ⟨rfl, word⟩
  case h_7 => cases h

/-- Encoding, then decoding: every row of the tables of R71 to R75. -/
theorem decode_encode {i : Instr} (h : i.wellFormed = true) : decode (encode i) = .ok i := by
  cases i with
  | scfg src var =>
    obtain ⟨source, legal⟩ := Option.isSome_iff_exists.mp h
    obtain rfl := Bank.source?_eq_some legal
    cases source <;> cases var <;> rfl
  | _ => rfl

/-- Settles O4: `encode_of_decode` is one direction, and with `decode_encode` a well-formed command is what its word
decodes to. -/
theorem decodeInvertsEncode : Obligations.DecodeInvertsEncode := by
  unfold Obligations.DecodeInvertsEncode
  refine fun w i => ⟨encode_of_decode, fun ⟨wellFormed, word⟩ => ?_⟩
  rw [← word]
  exact decode_encode wellFormed

/-- Settles O1: each word is the encoding of its command, and decoding inverts encoding. -/
theorem legalWordsDecodeToTheirCommands : Obligations.LegalWordsDecodeToTheirCommands := by
  unfold Obligations.LegalWordsDecodeToTheirCommands
  and_intros <;> exact (decodeInvertsEncode _ _).mpr ⟨rfl, rfl⟩

/-- R73: the codes of the banks with a 64-bit output. -/
theorem source?_bankOfCode_eq_none (sel : BitVec 3) :
    (bankOfCode sel).source? = none ↔ sel = 1 ∨ sel = 3 ∨ sel = 5 ∨ sel = 6 := by
  revert sel
  decide

/-- R74: the codes that name no conversion. -/
theorem cvtInstr_eq_error (sel : BitVec 3) (cause : IllegalWord) :
    cvtInstr sel = .error cause ↔ .functionCode = cause ∧ 4 ≤ sel := by
  revert sel
  cases cause <;> decide

/-- Settles O2: the words are taken by the opcode, and under it by the variant bit and `sel`, in the order the decoder
looks at them. -/
theorem illegalWordsAreRejectedByTheirCause : Obligations.IllegalWordsAreRejectedByTheirCause := by
  unfold Obligations.IllegalWordsAreRejectedByTheirCause
  intro w
  have opcodes : ∀ op : BitVec 4,
      (op = 0#4 ∨ 7#4 ≤ op) ∧ op ∉ [1#4, 2#4, 4#4, 5#4, 6#4] ∧ op ≠ 3#4 ∧ op ≠ 4#4 ∧ op ≠ 5#4 ∧ op ≠ 6#4 ∨
      op = 1 ∨ op = 2 ∨ op = 3 ∨ op = 4 ∨ op = 5 ∨ op = 6 := by decide
  change _ ∧ (_ ↔ _ ∧ vField w = true) ∧ _ ∧ (_ ↔ _ ∧ vField w = false ∧ _) ∧ (_ ↔ _ ∧ vField w = false ∧ _)
  rcases opcodes (opField w) with ⟨unassigned, others⟩ | op | op | op | op | op | op
  · simp [decode_of_unassigned_opcode unassigned, unassigned, others]
  case _ | _ =>
    cases hv : vField w <;> simp [decode, op, hv]
  · have wide := source?_bankOfCode_eq_none (selField w)
    cases hs : (bankOfCode (selField w)).source? <;> simpa [decode, op, hs] using wide
  · by_cases hs : selField w = 0#3 <;> cases hv : vField w <;> simp [decode, op, hv, hs]
  · cases hv : vField w <;> simp [decode, op, hv, cvtInstr_eq_error]
  · by_cases hs : selField w = 0#3 <;> cases hv : vField w <;> simp [decode, op, hv, hs]

end Sys2Proof.Machine
end

section
/-! SUPPORT. The all-zero state of the xorshift and xoshiro banks is reached from itself only (41_xorshift.md R130,
42_xoshiro.md R144): each transition is undone word by word, by the lemmas of Laws/Bits. -/

namespace Sys2Proof.Machine

set_option Elab.async false in
theorem xs32Step_eq_zero {x : W32} (h : xs32Step x = 0) : x = 0 :=
  xorShl_eq_zero (by decide) (xorShr_eq_zero (by decide) (xorShl_eq_zero (by decide) h))

theorem xs64Step_eq_zero {x : W64} (h : xs64Step x = 0) : x = 0 :=
  xorShl_eq_zero (by decide) (xorShr_eq_zero (by decide) (xorShl_eq_zero (by decide) h))

/-- Three of the four words are only moved, and with them zero the new word is two xor-shifts of the oldest. -/
theorem xs128Step_eq_zero {c : Config} {g : Xs128} (ha : 1 ≤ c.xs128A) (hb : 1 ≤ c.xs128B)
    (h : xs128Step c g = { x := 0, y := 0, z := 0, w := 0 }) : g = { x := 0, y := 0, z := 0, w := 0 } := by
  obtain ⟨x, y, z, w⟩ := g
  obtain ⟨rfl, rfl, rfl, mixed⟩ := Xs128.mk.inj h
  rw [xorShr_zero] at mixed
  have oldest : xorShr (xorShl x c.xs128A) c.xs128B = 0 := by simpa using mixed
  obtain rfl := xorShl_eq_zero ha (xorShr_eq_zero hb oldest)
  rfl

/-- One word is only moved, and with it zero the other is two xor-shifts of the scrambled one. -/
theorem xspStep_eq_zero {c : Config} {g : Xsp} (ha : 1 ≤ c.xspA) (hb : 1 ≤ c.xspB)
    (h : xspStep c g = { s0 := 0, s1 := 0 }) : g = { s0 := 0, s1 := 0 } := by
  obtain ⟨s0, s1⟩ := g
  obtain ⟨rfl, mixed⟩ := Xsp.mk.inj h
  have scrambled : xorShr (xorShl s0 c.xspA) c.xspB = 0 := by simpa [xorShr] using mixed
  obtain rfl := xorShl_eq_zero ha (xorShr_eq_zero hb scrambled)
  rfl

/-- The update lines of R141 and R143, at either width: the rotated word gives `s3 = s1`, the first line then `s0 = 0`, the
second `s2 = s1`, and what is left is a xor-shift of `s1`. -/
theorem xoshiro_words_eq_zero {w shift rot : Nat} {s0 s1 s2 s3 : BitVec w} (hs : 1 ≤ shift) (hr : rot < w)
    (h0 : s0 ^^^ (s3 ^^^ s1) = 0) (h1 : s1 ^^^ (s2 ^^^ s0) = 0) (h2 : s2 ^^^ s0 ^^^ (s1 <<< shift) = 0)
    (h3 : rotl (s3 ^^^ s1) rot = 0) : s0 = 0 ∧ s1 = 0 ∧ s2 = 0 ∧ s3 = 0 := by
  obtain rfl : s3 = s1 := BitVec.xor_eq_zero_iff.mp (rotl_eq_zero hr h3)
  obtain rfl : s0 = 0#w := by simpa using h0
  obtain rfl : s3 = s2 := BitVec.xor_eq_zero_iff.mp (by simpa using h1)
  rw [BitVec.xor_zero] at h2
  obtain rfl : s3 = 0#w := xorShl_eq_zero hs h2
  exact ⟨rfl, rfl, rfl, rfl⟩

theorem xo128Step_eq_zero {c : Config} {g : Xo128} (hs : 1 ≤ c.xo128Shift) (hr : c.xo128Rot < 32)
    (h : xo128Step c g = { s0 := 0, s1 := 0, s2 := 0, s3 := 0 }) : g = { s0 := 0, s1 := 0, s2 := 0, s3 := 0 } := by
  obtain ⟨s0, s1, s2, s3⟩ := g
  obtain ⟨h0, h1, h2, h3⟩ := Xo128.mk.inj h
  obtain ⟨rfl, rfl, rfl, rfl⟩ := xoshiro_words_eq_zero hs hr h0 h1 h2 h3
  rfl

theorem xo256Step_eq_zero {c : Config} {g : Xo256} (hs : 1 ≤ c.xo256Shift) (hr : c.xo256Rot < 64)
    (h : xo256Step c g = { s0 := 0, s1 := 0, s2 := 0, s3 := 0 }) : g = { s0 := 0, s1 := 0, s2 := 0, s3 := 0 } := by
  obtain ⟨s0, s1, s2, s3⟩ := g
  obtain ⟨h0, h1, h2, h3⟩ := Xo256.mk.inj h
  obtain ⟨rfl, rfl, rfl, rfl⟩ := xoshiro_words_eq_zero hs hr h0 h1 h2 h3
  rfl

/-- Settles O23: R11's range of a shift amount is what each of the six lemmas asks of it. -/
theorem nonzeroStatesStayNonzero : Obligations.NonzeroStatesStayNonzero := by
  unfold Obligations.NonzeroStatesStayNonzero
  intro c legal
  obtain ⟨⟨xs128A, xs128B, -⟩, ⟨xspA, xspB, -⟩, ⟨xo128Shift, xo128Rot⟩, ⟨xo256Shift, -, xo256Rot⟩, -⟩ := legal
  exact ⟨fun _ => mt xs32Step_eq_zero, fun _ => mt xs64Step_eq_zero,
    fun _ => mt (xs128Step_eq_zero xs128A.1 xs128B.1), fun _ => mt (xspStep_eq_zero xspA.1 xspB.1),
    fun _ => mt (xo128Step_eq_zero xo128Shift.1 xo128Rot.2), fun _ => mt (xo256Step_eq_zero xo256Shift.1 xo256Rot.2)⟩

end Sys2Proof.Machine
end

section
/-! SUPPORT. The commands by family, so that a statement about all of them has one case a family and not one a command:
SEED and NEXT of any bank (41_xorshift.md R120, R121), SCFG, NEXTB, and those that leave the architectural state. What a
bank's transition and a bank's seed words do is said once for all eight banks. -/

namespace Sys2Proof.Machine

set_option Elab.async false in
/-- The commands by family: the families of R71, CVT and STAT taken together. -/
theorem instr_cases (i : Instr) :
    (∃ b, i = seedInstr b) ∨ (∃ b, i = nextInstr b) ∨ (∃ src var, i = .scfg src var) ∨ i = .nextb ∨
      i ∈ [Instr.cvtMul, .cvtBitcast, .cvtD32, .cvtD52, .stat] := by
  cases i with
  | seedXs32 => exact .inl ⟨.xs32, rfl⟩
  | seedXs64 => exact .inl ⟨.xs64, rfl⟩
  | seedXs128 => exact .inl ⟨.xs128, rfl⟩
  | seedXsp => exact .inl ⟨.xsp, rfl⟩
  | seedXo128 => exact .inl ⟨.xo128, rfl⟩
  | seedXo256 => exact .inl ⟨.xo256, rfl⟩
  | seedSm64 => exact .inl ⟨.sm64, rfl⟩
  | seedMb32 => exact .inl ⟨.mb32, rfl⟩
  | nextXs32 => exact .inr (.inl ⟨.xs32, rfl⟩)
  | nextXs64 => exact .inr (.inl ⟨.xs64, rfl⟩)
  | nextXs128 => exact .inr (.inl ⟨.xs128, rfl⟩)
  | nextXsp => exact .inr (.inl ⟨.xsp, rfl⟩)
  | nextXo128 => exact .inr (.inl ⟨.xo128, rfl⟩)
  | nextXo256 => exact .inr (.inl ⟨.xo256, rfl⟩)
  | nextSm64 => exact .inr (.inl ⟨.sm64, rfl⟩)
  | nextMb32 => exact .inr (.inl ⟨.mb32, rfl⟩)
  | scfg src var => exact .inr (.inr (.inl ⟨src, var, rfl⟩))
  | nextb => exact .inr (.inr (.inr (.inl rfl)))
  | cvtMul | cvtBitcast | cvtD32 | cvtD52 | stat => exact .inr (.inr (.inr (.inr (by simp))))

/-! ### Transitions -/

/-- The transition of a bank on the architectural state, and its output on the 64-bit port. -/
def advance (b : Bank) (r : Arch) : Arch × W64 :=
  match b with
  | .xs32 => ((advanceXs32 r).1, zext64 (advanceXs32 r).2)
  | .xs64 => advanceXs64 r
  | .xs128 => ((advanceXs128 r).1, zext64 (advanceXs128 r).2)
  | .xsp => advanceXsp r
  | .xo128 => ((advanceXo128 r).1, zext64 (advanceXo128 r).2)
  | .xo256 => advanceXo256 r
  | .sm64 => advanceSm64 r
  | .mb32 => ((advanceMb32 r).1, zext64 (advanceMb32 r).2)

theorem exec_nextInstr (b : Bank) (s : State) :
    exec (nextInstr b) s = nextBank b (advance b s.arch).1 (advance b s.arch).2 s := by cases b <;> rfl

@[simp] theorem performed_nextInstr (b : Bank) (s : State) : performed (nextInstr b) s = (advance b s.arch).1 := by
  cases b <;> rfl

@[simp] theorem ready_nextInstr (b : Bank) (s : State) : Ready (nextInstr b) s ↔ s.arch.isSeeded b = true := by
  cases b <;> rfl

/-- R165: a draw of the sampler is the transition of its source bank. -/
theorem draw32_fst (src : Source) (r : Arch) : (draw32 src r).1 = (advance src.bank r).1 := by cases src <;> rfl

theorem draw32_snd (src : Source) (r : Arch) : zext64 (draw32 src r).2 = (advance src.bank r).2 := by cases src <;> rfl

theorem advance_control (b : Bank) (r : Arch) : (advance b r).1.SameControl r := by
  cases b <;> exact ⟨rfl, rfl, rfl, rfl, rfl⟩

/-- A transition leaves the registers of the other banks. -/
theorem advance_words_ne {b b' : Bank} (h : b' ≠ b) (r : Arch) : (advance b r).1.words b' = r.words b' := by
  cases b <;> cases b' <;>
    simp [advance, advanceXs32, advanceXs64, advanceXs128, advanceXsp, advanceXo128, advanceXo256, advanceSm64,
      advanceMb32, Arch.words] at h ⊢

/-! ### Seeds -/

/-- The architectural state with the seed words on the ports stored in a bank. -/
def storeSeed (b : Bank) (p : Ports) (r : Arch) : Arch :=
  match b with
  | .xs32 => { r with xs32 := low32 p.a }
  | .xs64 => { r with xs64 := p.a }
  | .xs128 => { r with xs128 := { x := low32 p.a, y := low32 p.b, z := low32 p.c, w := low32 p.d } }
  | .xsp => { r with xsp := { s0 := p.a, s1 := p.b } }
  | .xo128 => { r with xo128 := { s0 := low32 p.a, s1 := low32 p.b, s2 := low32 p.c, s3 := low32 p.d } }
  | .xo256 => { r with xo256 := { s0 := p.a, s1 := p.b, s2 := p.c, s3 := p.d } }
  | .sm64 => { r with sm64 := p.a }
  | .mb32 => { r with mb32 := low32 p.a }

@[simp] theorem performed_seedInstr (b : Bank) (s : State) :
    performed (seedInstr b) s = (storeSeed b s.ports s.arch).markSeeded b := by cases b <;> rfl

theorem storeSeed_control (b : Bank) (p : Ports) (r : Arch) : (storeSeed b p r).SameControl r := by
  cases b <;> exact ⟨rfl, rfl, rfl, rfl, rfl⟩

theorem storeSeed_words_ne {b b' : Bank} (h : b' ≠ b) (p : Ports) (r : Arch) :
    (storeSeed b p r).words b' = r.words b' := by
  cases b <;> cases b' <;> simp [storeSeed, Arch.words] at h ⊢

/-- What SEED stores in its bank is what is on the ports, whatever the state. -/
theorem storeSeed_words_self (b : Bank) (p : Ports) (r u : Arch) :
    (storeSeed b p r).words b = (storeSeed b p u).words b := by cases b <;> rfl

/-! ### The other families -/

/-- R161: SCFG is performed on legal sources only. -/
theorem Ready.source {src : Bank} {var : Variant} {s : State} (h : Ready (.scfg src var) s) :
    ∃ source : Source, source.bank = src := by
  obtain ⟨legal, _⟩ := h
  obtain ⟨source, named⟩ := Option.isSome_iff_exists.mp legal
  exact ⟨source, Bank.source?_eq_some named⟩

@[simp] theorem performed_scfg (src : Source) (var : Variant) (s : State) :
    performed (.scfg src.bank var) s =
      { s.arch with range := low32 s.ports.a, src := src, var := var, svalid := true } := by cases src <;> rfl

@[simp] theorem performed_nextb (s : State) : performed .nextb s = (advance s.arch.src.bank s.arch).1 :=
  draw32_fst _ _

theorem performed_of_unchanging {i : Instr} (h : i ∈ [Instr.cvtMul, .cvtBitcast, .cvtD32, .cvtD52, .stat]) (s : State) :
    performed i s = s.arch := by
  fin_cases h <;> rfl

/-- What a command leaves of the architectural state: all of it, or what the performed command makes of it. -/
theorem exec_arch {i : Instr} {s t : State} (h : exec i s = .next t) :
    t.arch = s.arch ∨ (Ready i s ∧ t.arch = performed i s) := by
  rcases exec_cases h with ⟨_, _, rfl, _⟩ | ⟨ready, _, rfl⟩ | ⟨ready, _, rfl⟩
  · exact .inl rfl
  · exact .inr ⟨ready, rfl⟩
  · exact .inr ⟨ready, rfl⟩

/-- R165: a later draw of NEXTB, accepted or rejected, leaves what the transition of its source bank leaves. -/
theorem redraw_arch {limit : W32} {s t : State} (h : redraw limit s = .next t) :
    t.arch = (advance s.arch.src.bank s.arch).1 := by
  rw [← draw32_fst]
  rcases redraw_cases h with ⟨_, rfl⟩ | ⟨_, rfl⟩ <;> rfl

end Sys2Proof.Machine
end

section
/-! SUPPORT. Banks that hold the all-zero state (10_state.md R24, 41_xorshift.md R130, 42_xoshiro.md R144): SEED stores none,
and the xorshift and xoshiro banks are led to none by their transitions. -/

namespace Sys2Proof.Machine

/-- Every register of the bank is zero. -/
def Arch.IsZero (b : Bank) (r : Arch) : Prop := ∀ w ∈ r.words b, w = 0

set_option Elab.async false in
@[simp] theorem zext64_eq_zero_iff {x : W32} : zext64 x = 0#64 ↔ x = 0#32 :=
  zext64_injective.eq_iff' rfl

section
variable (r : Arch)

@[simp] theorem isZero_xs32 : r.IsZero .xs32 ↔ r.xs32 = 0 := by simp [Arch.IsZero, Arch.words]

@[simp] theorem isZero_xs64 : r.IsZero .xs64 ↔ r.xs64 = 0 := by simp [Arch.IsZero, Arch.words]

@[simp] theorem isZero_xs128 : r.IsZero .xs128 ↔ r.xs128 = { x := 0, y := 0, z := 0, w := 0 } := by
  cases h : r.xs128
  simp [Arch.IsZero, Arch.words, h]

@[simp] theorem isZero_xsp : r.IsZero .xsp ↔ r.xsp = { s0 := 0, s1 := 0 } := by
  cases h : r.xsp
  simp [Arch.IsZero, Arch.words, h]

@[simp] theorem isZero_xo128 : r.IsZero .xo128 ↔ r.xo128 = { s0 := 0, s1 := 0, s2 := 0, s3 := 0 } := by
  cases h : r.xo128
  simp [Arch.IsZero, Arch.words, h]

@[simp] theorem isZero_xo256 : r.IsZero .xo256 ↔ r.xo256 = { s0 := 0, s1 := 0, s2 := 0, s3 := 0 } := by
  cases h : r.xo256
  simp [Arch.IsZero, Arch.words, h]

@[simp] theorem isZero_sm64 : r.IsZero .sm64 ↔ r.sm64 = 0 := by simp [Arch.IsZero, Arch.words]

@[simp] theorem isZero_mb32 : r.IsZero .mb32 ↔ r.mb32 = 0 := by simp [Arch.IsZero, Arch.words]

end

/-- R24: the invariant says one thing of every bank but the two counters, which step through zero (R154). -/
theorem nonzeroOk_iff {r : Arch} :
    r.NonzeroOk ↔ ∀ b, b ≠ .sm64 → b ≠ .mb32 → r.isSeeded b = true → ¬ r.IsZero b := by
  constructor
  · rintro ⟨xs32, xs64, xs128, xsp, xo128, xo256⟩ b notSm64 notMb32
    cases b <;> simp_all
  · intro h
    exact ⟨by simpa using h .xs32, by simpa using h .xs64, by simpa using h .xs128, by simpa using h .xsp,
      by simpa using h .xo128, by simpa using h .xo256⟩

/-- R120: SEED is performed exactly when what it stores is not all zero. -/
theorem ready_seedInstr (b : Bank) (s : State) :
    Ready (seedInstr b) s ↔ ¬ (storeSeed b s.ports s.arch).IsZero b := by
  cases b <;> simp [seedInstr, Ready, storeSeed]

/-- R130, R144: the six banks' lemmas, at the parameters the machine runs with. -/
theorem isZero_of_advance {b : Bank} {r : Arch} (notSm64 : b ≠ .sm64) (notMb32 : b ≠ .mb32)
    (h : (advance b r).1.IsZero b) : r.IsZero b := by
  have ⟨xs32, xs64, xs128, xsp, xo128, xo256⟩ := nonzeroStatesStayNonzero config (by decide)
  cases b with
  | xs32 => exact (isZero_xs32 _).mpr (not_imp_not.mp (xs32 _) ((isZero_xs32 _).mp h))
  | xs64 => exact (isZero_xs64 _).mpr (not_imp_not.mp (xs64 _) ((isZero_xs64 _).mp h))
  | xs128 => exact (isZero_xs128 _).mpr (not_imp_not.mp (xs128 _) ((isZero_xs128 _).mp h))
  | xsp => exact (isZero_xsp _).mpr (not_imp_not.mp (xsp _) ((isZero_xsp _).mp h))
  | xo128 => exact (isZero_xo128 _).mpr (not_imp_not.mp (xo128 _) ((isZero_xo128 _).mp h))
  | xo256 => exact (isZero_xo256 _).mpr (not_imp_not.mp (xo256 _) ((isZero_xo256 _).mp h))
  | sm64 => exact absurd rfl notSm64
  | mb32 => exact absurd rfl notMb32

/-! ### The invariant -/

theorem isZero_congr {b : Bank} {r u : Arch} (h : r.words b = u.words b) : r.IsZero b ↔ u.IsZero b := by
  rw [Arch.IsZero, Arch.IsZero, h]

theorem nonzeroOk_advance {r : Arch} (b : Bank) (h : r.NonzeroOk) : (advance b r).1.NonzeroOk := by
  rw [nonzeroOk_iff] at h ⊢
  intro b' notSm64 notMb32 seeded zero
  rw [isSeeded_congr (advance_control b r).1] at seeded
  refine h b' notSm64 notMb32 seeded ?_
  by_cases same : b' = b
  · subst same
    exact isZero_of_advance notSm64 notMb32 zero
  · exact (isZero_congr (advance_words_ne same r)).mp zero

theorem nonzeroOk_seeded {b : Bank} {s : State} (h : s.arch.NonzeroOk) (ready : Ready (seedInstr b) s) :
    ((storeSeed b s.ports s.arch).markSeeded b).NonzeroOk := by
  rw [nonzeroOk_iff] at h ⊢
  intro b' notSm64 notMb32 seeded zero
  rw [isZero_congr (Arch.markSeeded_words _ _ _)] at zero
  by_cases same : b' = b
  · subst same
    exact (ready_seedInstr b' s).mp ready zero
  · rw [Arch.markSeeded_isSeeded, beq_false_of_ne (Ne.symm same), Bool.or_false,
      isSeeded_congr (storeSeed_control _ _ _).1] at seeded
    exact h b' notSm64 notMb32 seeded ((isZero_congr (storeSeed_words_ne same _ _)).mp zero)

theorem nonzeroOk_performed {i : Instr} {s : State} (h : s.arch.NonzeroOk) (ready : Ready i s) :
    (performed i s).NonzeroOk := by
  rcases instr_cases i with ⟨b, rfl⟩ | ⟨b, rfl⟩ | ⟨src, var, rfl⟩ | rfl | unchanging
  · rw [performed_seedInstr]
    exact nonzeroOk_seeded h ready
  · rw [performed_nextInstr]
    exact nonzeroOk_advance b h
  · obtain ⟨source, rfl⟩ := ready.source
    rw [performed_scfg]
    exact h
  · rw [performed_nextb]
    exact nonzeroOk_advance _ h
  · rwa [performed_of_unchanging unchanging]

theorem nonzeroOk_exec {i : Instr} {s t : State} (ht : exec i s = .next t) (h : s.arch.NonzeroOk) :
    t.arch.NonzeroOk := by
  rcases exec_arch ht with kept | ⟨ready, changed⟩
  · rwa [kept]
  · rw [changed]
    exact nonzeroOk_performed h ready

theorem nonzeroOk_reset (n : Nat) : (Arch.reset n).NonzeroOk :=
  nonzeroOk_iff.mpr fun b _ _ seeded => by simp at seeded

/-- Settles O57: each kind of step of `step_cases` keeps the invariant; a redraw is a transition of the source bank. -/
theorem stepsKeepValidBanksNonzero : Obligations.StepsKeepValidBanksNonzero := by
  unfold Obligations.StepsKeepValidBanksNonzero
  intro s t h ht
  rcases step_cases ht with ⟨_, _, rfl⟩ | ⟨_, _, _, _, _, _, _, performs⟩ | ⟨_, _, _, _, _, _, _, rfl⟩ |
    ⟨_, _, _, _, redraws⟩ | ⟨_, _, rfl⟩
  · exact nonzeroOk_reset _
  · exact nonzeroOk_exec performs h
  · exact h
  · rw [redraw_arch redraws]
    exact nonzeroOk_advance _ h
  · exact h

end Sys2Proof.Machine
end

section
/-! SUPPORT. One step as an equation for each thing the block can find (20_memory.md R56, 70_reset_and_hazards.md R230 to
R236, 60_exceptions.md R200 to R203), and NEXTB's two tests, on its first draw and on a later one (44_bounded_sampler.md
R166). -/

namespace Sys2Proof.Machine

/-! ### The step -/

section
variable {s : State} {cmd : W8} {ports : Ports} {rest : List HostEvent}

set_option Elab.async false in
theorem step_command {i : Instr} (hp : s.phase = .idle) (hh : s.host = .command cmd ports :: rest)
    (hd : decode cmd = .ok i) : step s = exec i { s with host := rest, ports := ports } := by
  simp only [step, nextWork_idle_command hp hh, hd]

theorem step_illegal {e : IllegalWord} (hp : s.phase = .idle) (hh : s.host = .command cmd ports :: rest)
    (hd : decode cmd = .error e) : step s = .next ({ s with host := rest, ports := ports }.failed .illegalCmd) := by
  simp only [step, nextWork_idle_command hp hh, hd, fail_eq]

theorem step_rst (hh : s.host = .rst :: rest) : step s = .next { s with host := rest }.resetNow := by
  simp only [step, nextWork_rst hh]

theorem step_busy {t : W32} (hp : s.phase = .rejecting t) (hh : ∀ rest, s.host ≠ .rst :: rest) :
    step s = redraw t { s with host := afterWait s.host } := by
  simp only [step, nextWork_busy hp hh]

theorem step_idle_empty (hp : s.phase = .idle) (hh : s.host = []) : step s = .next s.idled := by
  simp only [step, nextWork_idle_empty hp hh]

theorem step_idle_wait (hp : s.phase = .idle) (hh : s.host = .wait :: rest) :
    step s = .next { s with host := rest }.idled := by
  simp only [step, nextWork_idle_wait hp hh]

end

/-- Settles O5: the three equations of a step of an idle block. -/
theorem stepPerformsThePresentedCommand : Obligations.StepPerformsThePresentedCommand := by
  unfold Obligations.StepPerformsThePresentedCommand
  exact ⟨fun _ _ _ _ _ => step_command, fun _ => step_idle_empty, fun _ _ => step_idle_wait⟩

/-- A word that decodes to no command is rejected for some cause. -/
theorem decode_error {w : W8} (h : ∀ i, decode w ≠ .ok i) : ∃ e, decode w = .error e := by
  cases hd : decode w with
  | ok i => exact absurd hd (h i)
  | error e => exact ⟨e, rfl⟩

/-- Log 10: a source with a 64-bit output is refused before anything else is looked at. -/
theorem exec_scfg_illegal {src : Bank} (var : Variant) (s : State) (wide : src.source? = none) :
    exec (.scfg src var) s = fail .illegalCmd s := by
  rw [exec_scfg, execScfg, wide]

/-- Settles O6: an illegal word fails at decoding, an ill-formed SCFG at its source. -/
theorem illegalWordCompletesIllegalCmd : Obligations.IllegalWordCompletesIllegalCmd := by
  unfold Obligations.IllegalWordCompletesIllegalCmd
  refine ⟨fun s cmd ports rest hp hh illegal => ?word, fun s src var illFormed => ?term⟩
  case word =>
    obtain ⟨e, hd⟩ := decode_error illegal
    rw [step_illegal hp hh hd]
    exact failsWith_fail _ _
  case term =>
    rw [exec_scfg_illegal var s (Option.not_isSome_iff_eq_none.mp (Bool.eq_false_iff.mp illFormed))]
    exact failsWith_fail _ _

/-- Settles O9: what `State.resetNow` leaves. -/
theorem resetClearsFlagsAndAbandonsTheCommand : Obligations.ResetClearsFlagsAndAbandonsTheCommand := by
  unfold Obligations.ResetClearsFlagsAndAbandonsTheCommand
  exact fun s rest hh => ⟨_, step_rst hh, rfl, rfl, rfl, rfl, rfl, rfl, rfl, rfl⟩

/-! ### NEXTB's tests -/

/-- The product of the next draw and the range (R166). -/
def drawProduct (r : Arch) : W64 := product (draw32 r.src r).2 r.range

section
variable {s : State} {limit : W32}

theorem redraw_rejects (h : low32 (drawProduct s.arch) < limit) :
    redraw limit s = .next (s.rejected limit (draw32 s.arch.src s.arch).1) := if_pos h

theorem redraw_accepts (h : ¬ low32 (drawProduct s.arch) < limit) :
    redraw limit s =
      .next (s.completed (draw32 s.arch.src s.arch).1 (zext64 (high32 (drawProduct s.arch)))) := if_neg h

theorem exec_nextb (valid : s.arch.svalid = true) :
    exec .nextb s =
      if low32 (drawProduct s.arch) < s.arch.range ∧ low32 (drawProduct s.arch) < threshold s.arch.var s.arch.range then
        .next (s.rejected (threshold s.arch.var s.arch.range) (draw32 s.arch.src s.arch).1)
      else .next (s.completed (draw32 s.arch.src s.arch).1 (zext64 (high32 (drawProduct s.arch)))) := if_pos valid

theorem exec_nextb_noSampler (invalid : s.arch.svalid = false) : exec .nextb s = fail .noSampler s :=
  if_neg (Bool.eq_false_iff.mp invalid)

end

/-! ### Every command has a next state -/

theorem exec_next (i : Instr) (s : State) : ∃ t, exec i s = .next t := by
  rcases instr_cases i with ⟨b, rfl⟩ | ⟨b, rfl⟩ | ⟨src, var, rfl⟩ | rfl | unchanging
  · by_cases ready : Ready (seedInstr b) s
    · exact ⟨_, performedWith_exec_seed ready⟩
    · obtain ⟨r, failed⟩ := failsWith_exec_seed ready
      exact ⟨_, failed⟩
  · rw [exec_nextInstr, nextBank]
    split
    · exact ⟨_, complete_eq _ _ _⟩
    · exact ⟨_, fail_eq _ _⟩
  · cases legal : src.source? with
    | none => exact ⟨_, exec_scfg_illegal var s legal⟩
    | some source =>
      obtain rfl := Bank.source?_eq_some legal
      rw [exec_scfg, execScfg_bank]
      split_ifs <;> exact ⟨_, rfl⟩
  · cases valid : s.arch.svalid
    · exact ⟨_, exec_nextb_noSampler valid⟩
    · rw [exec_nextb valid]
      split_ifs <;> exact ⟨_, rfl⟩
  · fin_cases unchanging <;> exact ⟨_, rfl⟩

/-- Settles O8: whatever the block takes from the host, it has a next state for it. -/
theorem everyStepHasANextState : Obligations.EveryStepHasANextState := by
  unfold Obligations.EveryStepHasANextState
  intro s
  unfold step
  rcases nextWork_cases s with ⟨rest, -, work⟩ | ⟨cmd, ports, rest, -, -, work⟩ | ⟨t, rest, -, -, work⟩ |
    ⟨rest, -, work⟩ <;> rw [work]
  · exact ⟨_, rfl⟩
  · dsimp only
    cases decode cmd with
    | ok i => exact exec_next i _
    | error e => exact ⟨_, rfl⟩
  · exact redraw_next t _
  · exact ⟨_, rfl⟩

/-! ### NEXTB by its rule -/

theorem zext64_high32 (m : W64) : zext64 (high32 m) = m >>> 32 := by
  apply BitVec.eq_of_toNat_eq
  have := m.isLt
  simp [zext64, high32, BitVec.extractLsb'_toNat, Nat.shiftRight_eq_div_pow]
  omega

/-- Settles O29: NEXTB's equations, with the halves of the product as the rule writes them. -/
theorem nextbMakesOneDrawThenDecides : Obligations.NextbMakesOneDrawThenDecides := by
  unfold Obligations.NextbMakesOneDrawThenDecides
  refine ⟨rfl, fun s => ⟨fun invalid => ?_, fun valid => ?_⟩⟩
  · rw [exec_nextb_noSampler invalid]
    exact failsWith_fail _ _
  · intro range drawn m t
    have ht : threshold s.arch.var range = t := by cases h : s.arch.var <;> simp [t, h, threshold]
    rw [exec_nextb valid, ← zext64_high32, ← ht]
    exact ⟨fun low below => if_pos ⟨low, below⟩, fun accepted => if_neg accepted⟩

/-- Settles O30: a busy step is a redraw, with the halves of the product as the rule writes them. -/
theorem busyStepRedrawsAgainstTheThreshold : Obligations.BusyStepRedrawsAgainstTheThreshold := by
  unfold Obligations.BusyStepRedrawsAgainstTheThreshold
  intro s t hp hh drawn m
  rw [step_busy hp hh, ← zext64_high32]
  exact ⟨fun low => redraw_rejects low, fun accepted => performedWith_iff.mpr (redraw_accepts accepted)⟩

/-- A redraw leaves the stream and the ports, and does not look at the stream. -/
theorem redraw_host {s t : State} {limit : W32} (ht : redraw limit s = .next t) (host : List HostEvent) :
    t.host = s.host ∧ t.ports = s.ports ∧ redraw limit { s with host := host } = .next { t with host := host } := by
  rcases redraw_cases ht with ⟨low, rfl⟩ | ⟨low, rfl⟩
  · exact ⟨rfl, rfl, redraw_rejects low⟩
  · exact ⟨rfl, rfl, redraw_accepts low⟩

/-- Settles O7: with a command at the head of the stream, and with an empty stream, a busy step is the same redraw. -/
theorem commandPresentedWhileBusyIsNotIssued : Obligations.CommandPresentedWhileBusyIsNotIssued := by
  unfold Obligations.CommandPresentedWhileBusyIsNotIssued
  intro s t cmd ports rest limit hp hh ht
  have busy : step s = redraw limit s := by
    simp only [step, nextWork_busy_command hp hh]
  have alone : step { s with host := [] } = redraw limit { s with host := [] } := by
    simp only [step, nextWork_busy_empty (s := { s with host := [] }) hp rfl]
  rw [alone]
  exact redraw_host (busy.symm.trans ht) []

end Sys2Proof.Machine
end

section
/-! SUPPORT. Non-interference (10_state.md R22, R33, R34): a transition reads its own bank only, so what banks that hold no
generator contain reaches no completion and no seeded bank. -/

namespace Sys2Proof.Machine

/-! ### A transition reads its own bank only -/

set_option Elab.async false in
theorem advance_congr (b : Bank) {r u : Arch} (h : r.words b = u.words b) :
    (advance b r).2 = (advance b u).2 ∧ (advance b r).1.words b = (advance b u).1.words b := by
  have narrow (src : Source) (same : r.words src.bank = u.words src.bank) :
      (advance src.bank r).2 = (advance src.bank u).2 ∧
        (advance src.bank r).1.words src.bank = (advance src.bank u).1.words src.bank := by
    obtain ⟨out, left⟩ := draw32_congr src same
    rw [← draw32_snd, ← draw32_snd, ← draw32_fst, ← draw32_fst, out]
    exact ⟨rfl, left⟩
  cases b with
  | xs32 => exact narrow .xs32 h
  | xs128 => exact narrow .xs128 h
  | xo128 => exact narrow .xo128 h
  | mb32 => exact narrow .mb32 h
  | xs64 =>
    have same : r.xs64 = u.xs64 := by simpa [Arch.words] using h
    simp [advance, advanceXs64, Arch.words, same]
  | xsp =>
    obtain ⟨s0, s1⟩ : r.xsp.s0 = u.xsp.s0 ∧ r.xsp.s1 = u.xsp.s1 := by simpa [Arch.words] using h
    simp [advance, advanceXsp, xspOut, xspStep, Arch.words, s0, s1]
  | xo256 =>
    obtain ⟨s0, s1, s2, s3⟩ : r.xo256.s0 = u.xo256.s0 ∧ r.xo256.s1 = u.xo256.s1 ∧ r.xo256.s2 = u.xo256.s2 ∧
      r.xo256.s3 = u.xo256.s3 := by simpa [Arch.words] using h
    simp [advance, advanceXo256, xo256Out, xo256Step, Arch.words, s0, s1, s2, s3]
  | sm64 =>
    have same : r.sm64 = u.sm64 := by simpa [Arch.words] using h
    simp [advance, advanceSm64, Arch.words, same]

/-! ### Architectural states that differ at most in banks that hold no generator -/

theorem sameControl_symm {r u : Arch} (h : r.SameControl u) : u.SameControl r := by
  obtain ⟨gvalid, range, src, var, svalid⟩ := h
  exact ⟨gvalid.symm, range.symm, src.symm, var.symm, svalid.symm⟩

theorem sameControl_trans {r u v : Arch} (h : r.SameControl u) (k : u.SameControl v) : r.SameControl v := by
  obtain ⟨gvalid, range, src, var, svalid⟩ := h
  obtain ⟨gvalid', range', src', var', svalid'⟩ := k
  exact ⟨gvalid.trans gvalid', range.trans range', src.trans src', var.trans var', svalid.trans svalid'⟩

/-- The architectural part of `State.SameButUnseeded`. -/
def Arch.SameButUnseeded (r u : Arch) : Prop :=
  r.SameControl u ∧ ∀ b, r.isSeeded b = true → r.words b = u.words b

section
variable {r u : Arch}

/-- Updates that leave the control registers, and all banks but one, keep the states alike if they leave that bank alike. -/
theorem Arch.SameButUnseeded.update {r' u' : Arch} {b : Bank} (h : r.SameButUnseeded u) (hr : r'.SameControl r)
    (hu : u'.SameControl u) (others : ∀ b', b' ≠ b → r'.words b' = r.words b' ∧ u'.words b' = u.words b')
    (same : r'.words b = u'.words b) : r'.SameButUnseeded u' := by
  obtain ⟨control, words⟩ := h
  refine ⟨sameControl_trans hr (sameControl_trans control (sameControl_symm hu)), fun b' seeded => ?_⟩
  by_cases hb : b' = b
  · rw [hb, same]
  · rw [isSeeded_congr hr.1] at seeded
    rw [(others b' hb).1, (others b' hb).2, words b' seeded]

theorem Arch.SameButUnseeded.advance {b : Bank} (h : r.SameButUnseeded u) (seeded : r.isSeeded b = true) :
    (advance b r).1.SameButUnseeded (advance b u).1 :=
  h.update (advance_control b r) (advance_control b u)
    (fun _ hb => ⟨advance_words_ne hb r, advance_words_ne hb u⟩) (advance_congr b (h.2 b seeded)).2

/-- SEED fills its bank from the ports, so it may be marked seeded. -/
theorem Arch.SameButUnseeded.seed (h : r.SameButUnseeded u) (b : Bank) (p : Ports) :
    ((storeSeed b p r).markSeeded b).SameButUnseeded ((storeSeed b p u).markSeeded b) := by
  have stored : (storeSeed b p r).SameButUnseeded (storeSeed b p u) :=
    h.update (storeSeed_control b p r) (storeSeed_control b p u)
      (fun _ hb => ⟨storeSeed_words_ne hb p r, storeSeed_words_ne hb p u⟩) (storeSeed_words_self b p r u)
  obtain ⟨⟨gvalid, range, src, var, svalid⟩, words⟩ := stored
  refine ⟨⟨congrArg (· ||| 1#8 <<< (bankCode b).toNat) gvalid, range, src, var, svalid⟩, fun b' seeded => ?_⟩
  rw [Arch.markSeeded_words, Arch.markSeeded_words]
  by_cases hb : b' = b
  · rw [hb]
    exact storeSeed_words_self b p r u
  · rw [Arch.markSeeded_isSeeded, beq_false_of_ne (Ne.symm hb), Bool.or_false] at seeded
    exact words b' seeded

theorem Arch.SameButUnseeded.scfg (h : r.SameButUnseeded u) (range : W32) (src : Source) (var : Variant) :
    Arch.SameButUnseeded { r with range := range, src := src, var := var, svalid := true }
      { u with range := range, src := src, var := var, svalid := true } := by
  obtain ⟨⟨gvalid, -⟩, words⟩ := h
  exact ⟨⟨gvalid, rfl, rfl, rfl, rfl⟩, fun b seeded => by cases b <;> exact words _ seeded⟩

/-- What reset leaves in the banks is not compared: no bank is seeded. -/
theorem Arch.SameButUnseeded.reset (n m : Nat) : (Arch.reset n).SameButUnseeded (Arch.reset m) :=
  ⟨⟨rfl, rfl, rfl, rfl, rfl⟩, fun b seeded => by simp at seeded⟩

theorem Arch.SameButUnseeded.isSeeded (h : r.SameButUnseeded u) (b : Bank) : u.isSeeded b = r.isSeeded b :=
  (isSeeded_congr h.1.1 b).symm

end

/-! ### States -/

section
variable {s u : State}

theorem State.SameButUnseeded.arch (h : s.SameButUnseeded u) : s.arch.SameButUnseeded u.arch := ⟨h.1, h.2.1⟩

theorem State.SameButUnseeded.ports (h : s.SameButUnseeded u) : u.ports = s.ports := h.2.2.1.symm

theorem State.SameButUnseeded.completed (h : s.SameButUnseeded u) {r r' : Arch} (hr : r.SameButUnseeded r') (v : W64) :
    (s.completed r v).SameButUnseeded (u.completed r' v) := by
  obtain ⟨-, -, ports, -, -, host⟩ := h
  exact ⟨hr.1, hr.2, ports, rfl, ⟨rfl, fun _ => rfl⟩, host⟩

theorem State.SameButUnseeded.failed (h : s.SameButUnseeded u) {st : Status} (bad : st ≠ .ok) :
    (s.failed st).SameButUnseeded (u.failed st) := by
  obtain ⟨control, words, ports, -, -, host⟩ := h
  exact ⟨control, words, ports, rfl, ⟨rfl, fun ok => absurd ok bad⟩, host⟩

theorem State.SameButUnseeded.rejected (h : s.SameButUnseeded u) {r r' : Arch} (hr : r.SameButUnseeded r') (t : W32) :
    (s.rejected t r).SameButUnseeded (u.rejected t r') := by
  obtain ⟨-, -, ports, -, -, host⟩ := h
  exact ⟨hr.1, hr.2, ports, rfl, trivial, host⟩

theorem State.SameButUnseeded.withHost (h : s.SameButUnseeded u) (host : List HostEvent) :
    State.SameButUnseeded { s with host := host } { u with host := host } := by
  obtain ⟨control, words, ports, phase, completion, -⟩ := h
  exact ⟨control, words, ports, phase, completion, rfl⟩

theorem State.SameButUnseeded.withPorts (h : s.SameButUnseeded u) (ports : Ports) :
    State.SameButUnseeded { s with ports := ports } { u with ports := ports } := by
  obtain ⟨control, words, -, phase, completion, host⟩ := h
  exact ⟨control, words, rfl, phase, completion, host⟩

end

/-- Settles O40: each conversion completes with what its formula gives of the ports. -/
theorem conversionsArePure : Obligations.ConversionsArePure := by
  unfold Obligations.ConversionsArePure
  intro i hi ports
  have of {v : Ports → W64} (computes : ∀ s : State, exec i s = complete s.arch (v s.ports) s) :
      ∃ r, ∀ s : State, s.ports = ports → PerformedWith s.arch r s (exec i s) :=
    ⟨v ports, fun s hp => by rw [computes, hp]; exact performedWith_complete _ _ _⟩
  fin_cases hi
  · exact of (v := fun p => toDoubleMul p.a) fun _ => rfl
  · exact of (v := fun p => toDoubleBitcast p.a) fun _ => rfl
  · exact of (v := fun p => toDoubleD32 config (low32 p.a)) fun _ => rfl
  · exact of (v := fun p => toDoubleD52 config (low32 p.a) (low20 p.b)) fun _ => rfl

theorem statusWord_congr {r u : Arch} (h : r.SameControl u) : statusWord r = statusWord u := by
  obtain ⟨gvalid, range, src, var, svalid⟩ := h
  simp only [statusWord, gvalid, range, src, var, svalid]

/-- R120: SEED of any bank fails when all of its seed words are zero. -/
theorem exec_seedInstr_zero {b : Bank} {s : State} (h : ¬ Ready (seedInstr b) s) :
    exec (seedInstr b) s = fail .zeroSeed s := by
  cases b with
  | xs32 | xs64 | sm64 | mb32 => exact seedBank_zero (beq_iff_eq.mpr (not_not.mp h))
  | xsp => exact seedBank_zero (twoWords_zero_iff.mpr (not_not.mp h))
  | xs128 | xo128 | xo256 => exact seedBank_zero (fourWords_zero_iff.mpr (not_not.mp h))

/-- Both outcomes are next states, and these differ at most in banks that hold no generator. -/
def SameOutcome (o p : Out) : Prop := ∃ s u, o = .next s ∧ p = .next u ∧ s.SameButUnseeded u

section
variable {s u : State} (h : s.SameButUnseeded u)
include h

theorem sameOutcome_fail {st : Status} (bad : st ≠ .ok) : SameOutcome (fail st s) (fail st u) :=
  ⟨_, _, rfl, rfl, h.failed bad⟩

theorem sameOutcome_complete {r r' : Arch} (hr : r.SameButUnseeded r') (v : W64) :
    SameOutcome (complete r v s) (complete r' v u) := ⟨_, _, rfl, rfl, h.completed hr v⟩

theorem sameOutcome_seed (b : Bank) : SameOutcome (exec (seedInstr b) s) (exec (seedInstr b) u) := by
  have ready : Ready (seedInstr b) u ↔ Ready (seedInstr b) s := by
    rw [ready_seedInstr, ready_seedInstr, h.ports, isZero_congr (storeSeed_words_self b s.ports u.arch s.arch)]
  by_cases hs : Ready (seedInstr b) s
  · have left := h.completed (h.arch.seed b s.ports) 0
    rw [← performed_seedInstr, ← h.ports, ← performed_seedInstr] at left
    exact ⟨_, _, performedWith_exec_seed hs, performedWith_exec_seed (ready.mpr hs), left⟩
  · rw [exec_seedInstr_zero hs, exec_seedInstr_zero (mt ready.mp hs)]
    exact sameOutcome_fail h (by decide)

theorem sameOutcome_next (b : Bank) : SameOutcome (exec (nextInstr b) s) (exec (nextInstr b) u) := by
  rw [exec_nextInstr, exec_nextInstr, nextBank, nextBank, h.arch.isSeeded b]
  split
  next seeded =>
    rw [(advance_congr b (h.2.1 b seeded)).1]
    exact sameOutcome_complete h (h.arch.advance seeded) _
  next => exact sameOutcome_fail h (by decide)

theorem sameOutcome_scfg (src : Bank) (var : Variant) :
    SameOutcome (exec (.scfg src var) s) (exec (.scfg src var) u) := by
  rw [exec_scfg, exec_scfg, execScfg, execScfg, h.arch.isSeeded, h.ports]
  cases src.source? with
  | none => exact sameOutcome_fail h (by decide)
  | some source =>
    dsimp only
    split_ifs
    · exact sameOutcome_fail h (by decide)
    · exact sameOutcome_complete h (h.arch.scfg _ _ _) _
    · exact sameOutcome_fail h (by decide)

/-- The word drawn and the range are the same, so the product is. -/
theorem drawProduct_eq (seeded : s.arch.isSeeded s.arch.src.bank = true) :
    drawProduct u.arch = drawProduct s.arch := by
  obtain ⟨-, range, src, -, -⟩ := h.1
  rw [drawProduct, drawProduct, ← range, ← src, (draw32_congr _ (h.2.1 _ seeded)).1]

theorem sameButUnseeded_draw (seeded : s.arch.isSeeded s.arch.src.bank = true) :
    (draw32 s.arch.src s.arch).1.SameButUnseeded (draw32 u.arch.src u.arch).1 := by
  obtain ⟨-, -, src, -, -⟩ := h.1
  rw [← src, draw32_fst, draw32_fst]
  exact h.arch.advance seeded

theorem sameOutcome_redraw (seeded : s.arch.isSeeded s.arch.src.bank = true) (limit : W32) :
    SameOutcome (redraw limit s) (redraw limit u) := by
  have product := drawProduct_eq h seeded
  have left := sameButUnseeded_draw h seeded
  by_cases low : low32 (drawProduct s.arch) < limit
  · exact ⟨_, _, redraw_rejects low, redraw_rejects (product ▸ low), h.rejected left _⟩
  · exact ⟨_, _, redraw_accepts low, redraw_accepts (product ▸ low), product ▸ h.completed left _⟩

theorem sameOutcome_nextb (sampler : s.arch.SamplerOk) : SameOutcome (exec .nextb s) (exec .nextb u) := by
  obtain ⟨-, range, -, var, svalid⟩ := h.1
  cases valid : s.arch.svalid with
  | false =>
    rw [exec_nextb_noSampler valid, exec_nextb_noSampler (svalid ▸ valid)]
    exact sameOutcome_fail h (by decide)
  | true =>
    have seeded := (sampler.1 valid).1
    have left := sameButUnseeded_draw h seeded
    rw [exec_nextb valid, exec_nextb (svalid ▸ valid), drawProduct_eq h seeded, ← range, ← var]
    split_ifs
    · exact ⟨_, _, rfl, rfl, h.rejected left _⟩
    · exact ⟨_, _, rfl, rfl, h.completed left _⟩

theorem sameOutcome_unchanging {i : Instr} (hi : i ∈ [Instr.cvtMul, .cvtBitcast, .cvtD32, .cvtD52, .stat]) :
    SameOutcome (exec i s) (exec i u) := by
  change i ∈ [Instr.cvtMul, .cvtBitcast, .cvtD32, .cvtD52] ++ [.stat] at hi
  rcases List.mem_append.mp hi with cvt | stat
  · obtain ⟨v, pure⟩ := conversionsArePure i cvt s.ports
    exact ⟨_, _, pure s rfl, pure u h.ports, h.completed h.arch v⟩
  · rw [List.mem_singleton.mp stat, exec_stat, exec_stat, ← statusWord_congr h.1]
    exact sameOutcome_complete h h.arch _

theorem sameOutcome_exec (sampler : s.arch.SamplerOk) (i : Instr) : SameOutcome (exec i s) (exec i u) := by
  rcases instr_cases i with ⟨b, rfl⟩ | ⟨b, rfl⟩ | ⟨src, var, rfl⟩ | rfl | unchanging
  · exact sameOutcome_seed h b
  · exact sameOutcome_next h b
  · exact sameOutcome_scfg h src var
  · exact sameOutcome_nextb h sampler
  · exact sameOutcome_unchanging h unchanging

end

/-- What the block finds at a step: a reset, a running NEXTB, a command, or nothing. -/
theorem step_situations (s : State) :
    (∃ rest, s.host = .rst :: rest) ∨ (∃ t, s.phase = .rejecting t ∧ ∀ rest, s.host ≠ .rst :: rest) ∨
      (s.phase = .idle ∧ ∃ cmd ports rest, s.host = .command cmd ports :: rest) ∨
      (s.phase = .idle ∧ s.host = []) ∨ (s.phase = .idle ∧ ∃ rest, s.host = .wait :: rest) := by
  rcases hh : s.host with - | ⟨- | - | ⟨cmd, ports⟩, rest⟩ <;> cases hp : s.phase <;> simp

/-- R34: each kind of step does alike in both states. -/
theorem sameOutcome_step {s u : State} (inv : s.SamplerInv) (h : s.SameButUnseeded u) :
    SameOutcome (step s) (step u) := by
  obtain ⟨control, words, ports, phase, completion, host⟩ := id h
  obtain ⟨sampler, loop⟩ := inv
  rcases step_situations s with ⟨rest, hh⟩ | ⟨t, hp, hh⟩ | ⟨hp, cmd, operands, rest, hh⟩ | ⟨hp, hh⟩ | ⟨hp, rest, hh⟩
  · rw [step_rst hh, step_rst (host ▸ hh)]
    obtain ⟨control, words⟩ := Arch.SameButUnseeded.reset s.freeCount u.freeCount
    exact ⟨_, _, rfl, rfl, control, words, rfl, rfl, trivial, rfl⟩
  · rw [step_busy hp hh, step_busy (phase ▸ hp) (host ▸ hh), ← host]
    obtain ⟨valid, -, -⟩ := loop t hp
    exact sameOutcome_redraw (h.withHost (afterWait s.host)) (sampler.1 valid).1 t
  · cases hd : decode cmd with
    | ok i =>
      rw [step_command hp hh hd, step_command (phase ▸ hp) (host ▸ hh) hd]
      exact sameOutcome_exec ((h.withHost rest).withPorts operands) sampler i
    | error e =>
      rw [step_illegal hp hh hd, step_illegal (phase ▸ hp) (host ▸ hh) hd]
      exact sameOutcome_fail (st := .illegalCmd) ((h.withHost rest).withPorts operands) (by decide)
  · rw [step_idle_empty hp hh, step_idle_empty (phase ▸ hp) (host ▸ hh)]
    exact ⟨_, _, rfl, rfl, control, words, ports, phase, trivial, host⟩
  · rw [step_idle_wait hp hh, step_idle_wait (phase ▸ hp) (host ▸ hh)]
    exact ⟨_, _, rfl, rfl, control, words, ports, phase, trivial, rfl⟩

/-- Settles O58: the two next states are the ones of `sameOutcome_step`. -/
theorem unseededContentsAreNotObservable : Obligations.UnseededContentsAreNotObservable := by
  unfold Obligations.UnseededContentsAreNotObservable
  intro s u s' u' inv h hs hu
  obtain ⟨s'', u'', hs', hu', same⟩ := sameOutcome_step inv h
  rw [hs] at hs'
  rw [hu] at hu'
  cases hs'
  cases hu'
  exact same

end Sys2Proof.Machine
end

section
/-! SUPPORT. Frames (10_state.md R22, R25, R27 to R30): what a command may write of the flags, of the banks and of the
sampler's registers. -/

namespace Sys2Proof.Machine

/-! ### The names of commands -/

set_option Elab.async false in
theorem seedInstr_inj {b b' : Bank} : seedInstr b' = seedInstr b ↔ b' = b := by cases b <;> cases b' <;> decide

theorem nextInstr_ne_seedInstr (b b' : Bank) : nextInstr b' ≠ seedInstr b := by cases b <;> cases b' <;> decide

theorem seedInstr_ne_of_mem {i : Instr} {b : Bank} (hi : i ∈ [Instr.cvtMul, .cvtBitcast, .cvtD32, .cvtD52, .stat]) :
    i ≠ seedInstr b := by
  rintro rfl
  revert hi
  cases b <;> decide

@[simp] theorem namedBank_seedInstr (r : Arch) (b : Bank) : namedBank r (seedInstr b) = some b := by cases b <;> rfl

@[simp] theorem namedBank_nextInstr (r : Arch) (b : Bank) : namedBank r (nextInstr b) = some b := by cases b <;> rfl

/-! ### What a performed command writes -/

section
variable {i : Instr} {s t : State}

/-- R25: only SEED sets a flag, its own bank's, and no command clears one. -/
theorem performed_isSeeded (ready : Ready i s) (b : Bank) :
    (performed i s).isSeeded b = true ↔ s.arch.isSeeded b = true ∨ i = seedInstr b := by
  rcases instr_cases i with ⟨b', rfl⟩ | ⟨b', rfl⟩ | ⟨src, var, rfl⟩ | rfl | unchanging
  · rw [performed_seedInstr, Arch.markSeeded_isSeeded, isSeeded_congr (storeSeed_control b' s.ports s.arch).1,
      Bool.or_eq_true, beq_iff_eq, seedInstr_inj]
  · rw [performed_nextInstr, isSeeded_congr (advance_control b' s.arch).1]
    exact (or_iff_left (nextInstr_ne_seedInstr b b')).symm
  · obtain ⟨source, rfl⟩ := ready.source
    rw [performed_scfg]
    exact (or_iff_left (by cases b <;> nofun)).symm
  · rw [performed_nextb, isSeeded_congr (advance_control _ s.arch).1]
    exact (or_iff_left (by cases b <;> nofun)).symm
  · rw [performed_of_unchanging unchanging]
    exact (or_iff_left (seedInstr_ne_of_mem unchanging)).symm

theorem performed_words_ne {b : Bank} (ready : Ready i s) (unnamed : namedBank s.arch i ≠ some b) :
    (performed i s).words b = s.arch.words b := by
  rcases instr_cases i with ⟨b', rfl⟩ | ⟨b', rfl⟩ | ⟨src, var, rfl⟩ | rfl | unchanging
  · rw [namedBank_seedInstr] at unnamed
    rw [performed_seedInstr, Arch.markSeeded_words, storeSeed_words_ne fun same => unnamed (congrArg some same.symm)]
  · rw [namedBank_nextInstr] at unnamed
    rw [performed_nextInstr, advance_words_ne fun same => unnamed (congrArg some same.symm)]
  · obtain ⟨source, rfl⟩ := ready.source
    rw [performed_scfg]
    cases b <;> rfl
  · rw [performed_nextb, advance_words_ne fun same => unnamed (congrArg some same.symm)]
  · rw [performed_of_unchanging unchanging]

/-- The sampler's registers agree (R27 to R30). -/
def Arch.SameSampler (r u : Arch) : Prop := r.range = u.range ∧ r.src = u.src ∧ r.var = u.var ∧ r.svalid = u.svalid

theorem performed_sampler (h : ∀ src var, i ≠ .scfg src var) : (performed i s).SameSampler s.arch := by
  rcases instr_cases i with ⟨b, rfl⟩ | ⟨b, rfl⟩ | ⟨src, var, rfl⟩ | rfl | unchanging
  · rw [performed_seedInstr]
    exact (storeSeed_control b s.ports s.arch).2
  · rw [performed_nextInstr]
    exact (advance_control b s.arch).2
  · exact absurd rfl (h src var)
  · rw [performed_nextb]
    exact (advance_control _ s.arch).2
  · rw [performed_of_unchanging unchanging]
    exact ⟨rfl, rfl, rfl, rfl⟩

end

/-- Settles O51: a flag rises with the completion of a SEED, which is with OK, and a reset clears all of them. -/
theorem gvalidIsSetBySeedAndClearedByReset : Obligations.GvalidIsSetBySeedAndClearedByReset := by
  unfold Obligations.GvalidIsSetBySeedAndClearedByReset
  refine ⟨fun i b s t ht => ?command, fun limit s t ht => ?draw, fun s t rest hh ht b => ?reset⟩
  case command =>
    rcases exec_cases ht with ⟨st, bad, rfl, _⟩ | ⟨ready, v, rfl⟩ | ⟨ready, rfl, rfl⟩
    · refine (or_iff_left ?_).symm
      rintro ⟨-, v, completes⟩
      exact bad (congrArg Completion.st (Option.some.inj completes))
    · rw [State.completed_arch, performed_isSeeded ready]
      exact or_congr_right ⟨fun seed => ⟨seed, v, rfl⟩, fun ⟨seed, _⟩ => seed⟩
    · rw [State.rejected_arch, performed_isSeeded ready]
      exact or_congr_right ⟨fun seed => (by cases b <;> cases seed), fun ⟨seed, _⟩ => seed⟩
  case draw =>
    rw [redraw_arch ht]
    exact (advance_control _ _).1
  case reset =>
    obtain rfl := Host.Outcome.next.inj ((step_rst hh).symm.trans ht)
    exact Arch.reset_isSeeded _ _

/-- Settles O52: a failing command leaves everything, a performed one the banks it does not name and their flags. -/
theorem commandsWriteOnlyTheBankTheyName : Obligations.CommandsWriteOnlyTheBankTheyName := by
  unfold Obligations.CommandsWriteOnlyTheBankTheyName
  refine ⟨fun i s t ht b unnamed => ?command, fun limit s t ht => ?draw⟩
  case command =>
    rcases exec_arch ht with kept | ⟨ready, changed⟩
    · rw [kept]
      exact ⟨rfl, rfl⟩
    · rw [changed]
      refine ⟨performed_words_ne ready unnamed, Bool.eq_iff_iff.mpr ((performed_isSeeded ready b).trans (or_iff_left ?_))⟩
      rintro rfl
      exact unnamed (namedBank_seedInstr _ _)
  case draw =>
    rw [redraw_arch ht]
    exact ⟨(advance_control _ _).1, fun b other => advance_words_ne other _⟩

/-- Settles O54: the registers are those of `performed_sampler`, and a draw writes no control register. -/
theorem onlyScfgWritesTheSampler : Obligations.OnlyScfgWritesTheSampler := by
  unfold Obligations.OnlyScfgWritesTheSampler
  refine ⟨fun i s t ht notScfg => ?command, fun limit s t ht => ?draw⟩
  case command =>
    rcases exec_arch ht with kept | ⟨_, changed⟩
    · rw [kept]
      exact ⟨rfl, rfl, rfl, rfl⟩
    · rw [changed]
      exact performed_sampler notScfg
  case draw =>
    rw [redraw_arch ht]
    exact (advance_control _ _).2

theorem exec_nextInstr_seeded {b : Bank} {s : State} (seeded : s.arch.isSeeded b = true) :
    exec (nextInstr b) s = .next (s.completed (advance b s.arch).1 (advance b s.arch).2) := by
  rw [exec_nextInstr, nextBank_seeded seeded]

/-- Settles O53: of a seeded bank NEXT is `advance`, which reads that bank only. -/
theorem nextReadsOnlyItsOwnBank : Obligations.NextReadsOnlyItsOwnBank := by
  unfold Obligations.NextReadsOnlyItsOwnBank
  intro b s u s' u' same hs hu ht hv
  rw [exec_nextInstr_seeded hs] at ht
  rw [exec_nextInstr_seeded hu] at hv
  cases ht
  cases hv
  obtain ⟨out, left⟩ := advance_congr b same
  exact ⟨by simp only [State.completed_completion, out], left⟩

/-- Settles O11: with the reset flags no bank is seeded and no sampler exists, and the status word is the one of a reset. -/
theorem commandsAfterResetFailCleanly : Obligations.CommandsAfterResetFailCleanly := by
  unfold Obligations.CommandsAfterResetFailCleanly
  refine ⟨rfl, ⟨rfl, rfl, rfl, rfl, rfl⟩, fun s control => ?_⟩
  have empty (b : Bank) : s.arch.isSeeded b = false := by rw [isSeeded_congr control.1, Arch.reset_isSeeded]
  refine ⟨fun b => ?next, fun b v legal => ?scfg, ?nextb, ?stat⟩
  case next =>
    rw [exec_nextInstr]
    exact failsWith_nextBank (empty b)
  case scfg =>
    obtain ⟨source, named⟩ := Option.isSome_iff_exists.mp legal
    obtain rfl := Bank.source?_eq_some named
    exact failsWith_exec_scfg_notSeeded v (empty _)
  case nextb =>
    rw [exec_nextb_noSampler control.2.2.2.2]
    exact failsWith_fail _ _
  case stat =>
    rw [exec_stat, statusWord_congr control, statusWord_reset]
    exact performedWith_complete _ _ _

/-- Settles O55: at reset the block is idle and no bank is seeded. -/
theorem invariantHoldsAtReset : Obligations.InvariantHoldsAtReset :=
  ⟨samplerInv_of_idle (samplerOk_reset 0) rfl, nonzeroOk_reset 0⟩

/-- Settles O60: a step replaces only its own place in the list. -/
theorem instancesShareNothing : Obligations.InstancesShareNothing := by
  unfold Obligations.InstancesShareNothing
  intro sys sys' j k hs other
  unfold System.stepAt at hs
  split at hs
  next =>
    cases hs
    exact ⟨rfl, rfl⟩
  next s _ =>
    obtain ⟨t, ht⟩ := everyStepHasANextState s
    rw [ht] at hs
    cases hs
    exact ⟨List.getElem?_set_ne (Ne.symm other), List.length_set⟩

end Sys2Proof.Machine
end

section
/-! SUPPORT. NEXT of the other banks by their rules (41_xorshift.md R127, R129, 42_xoshiro.md R141, R143,
43_counter_generators.md R151, R153). -/

namespace Sys2Proof.Machine

set_option Elab.async false in
/-- R121: NEXT of a bank whose transition and output are known. -/
theorem exec_nextInstr_clauses {b : Bank} {s : State} {r : Arch} {v : W64} (h : advance b s.arch = (r, v)) :
    (s.arch.isSeeded b = true → PerformedWith r v s (exec (nextInstr b) s)) ∧
      (s.arch.isSeeded b = false → FailsWith .notSeeded s (exec (nextInstr b) s)) := by
  rw [exec_nextInstr, h]
  exact ⟨fun seeded => performedWith_nextBank seeded, fun empty => failsWith_nextBank empty⟩

/-- Settles O16: the rule's lines are those of `xs128Step`. -/
theorem nextXs128MovesTheWordsDown : Obligations.NextXs128MovesTheWordsDown := by
  unfold Obligations.NextXs128MovesTheWordsDown
  exact ⟨rfl, fun s => exec_nextInstr_clauses (b := .xs128) rfl⟩

/-- Settles O17: the rule's lines are those of `xspStep` and `xspOut`. -/
theorem nextXspReturnsTheSumOfItsWords : Obligations.NextXspReturnsTheSumOfItsWords := by
  unfold Obligations.NextXspReturnsTheSumOfItsWords
  exact ⟨rfl, fun s => exec_nextInstr_clauses (b := .xsp) rfl⟩

/-- Settles O18: `XSP_OUT_PRE` does not enter the update, and the sum after it is the sum of the words it leaves. -/
theorem xspPostSumIsThePreSumOneStepLater : Obligations.XspPostSumIsThePreSumOneStepLater := by
  unfold Obligations.XspPostSumIsThePreSumOneStepLater
  exact fun _ _ => ⟨rfl, rfl⟩

/-- Settles O19: the update lines, each put into the next. -/
theorem nextXo128HasItsClosedForm : Obligations.NextXo128HasItsClosedForm := by
  unfold Obligations.NextXo128HasItsClosedForm
  refine ⟨rfl, fun s => exec_nextInstr_clauses (b := .xo128) ?_⟩
  simp only [advance, advanceXo128, xo128Step, xo128Out, rotl, zext64, BitVec.xor_assoc]

/-- Settles O20: the update lines, each put into the next. -/
theorem nextXo256HasItsClosedForm : Obligations.NextXo256HasItsClosedForm := by
  unfold Obligations.NextXo256HasItsClosedForm
  refine ⟨rfl, fun s => exec_nextInstr_clauses (b := .xo256) ?_⟩
  simp only [advance, advanceXo256, xo256Step, xo256Out, rotl, BitVec.xor_assoc]

/-- Settles O21: the rule's lines are those of `sm64Step` and `sm64Mix`. -/
theorem nextSm64AddsAndMixes : Obligations.NextSm64AddsAndMixes := by
  unfold Obligations.NextSm64AddsAndMixes
  exact ⟨rfl, fun s => exec_nextInstr_clauses (b := .sm64) rfl⟩

/-- Settles O22: the rule's lines are those of `mb32Step` and `mb32Mix`. -/
theorem nextMb32AddsAndMixes : Obligations.NextMb32AddsAndMixes := by
  unfold Obligations.NextMb32AddsAndMixes
  exact ⟨rfl, fun s => exec_nextInstr_clauses (b := .mb32) rfl⟩

/-! ### The counters (43_counter_generators.md R151, R153, R154) -/

theorem advance_sm64 (r : Arch) :
    advance .sm64 r = ({ r with sm64 := sm64Step r.sm64 }, sm64Mix config (sm64Step r.sm64)) := rfl

theorem advance_mb32 (r : Arch) :
    advance .mb32 r = ({ r with mb32 := mb32Step r.mb32 }, zext64 (mb32Mix config (mb32Step r.mb32))) := rfl

/-- Settles O24: the increments lead from the values named to 0 and from 0 to themselves, and both mixes map 0 to 0. -/
theorem countersPassThroughZero : Obligations.CountersPassThroughZero := by
  unfold Obligations.CountersPassThroughZero
  refine fun s => ⟨fun seeded hx => ?_, fun seeded hx => ?_, fun seeded hx => ⟨sm64Mix config 0x9E3779B97F4A7C15#64, ?_⟩,
    fun seeded hx => ⟨zext64 (mb32Mix config 0x6D2B79F5#32), ?_⟩⟩
  · refine (exec_nextInstr_clauses (b := .sm64) ?_).1 seeded
    have into : sm64Step 0x61C8864680B583EB#64 = 0 ∧ sm64Mix config 0 = 0 := by decide
    rw [advance_sm64, hx, into.1, into.2]
  · refine (exec_nextInstr_clauses (b := .mb32) ?_).1 seeded
    have into : mb32Step 0x92D4860B#32 = 0 ∧ zext64 (mb32Mix config 0) = 0 := by decide
    rw [advance_mb32, hx, into.1, into.2]
  · refine (exec_nextInstr_clauses (b := .sm64) ?_).1 seeded
    rw [advance_sm64, hx]
    rfl
  · refine (exec_nextInstr_clauses (b := .mb32) ?_).1 seeded
    rw [advance_mb32, hx]
    rfl

theorem xorShr_injective {w k : Nat} (hk : 1 ≤ k) : Function.Injective fun x : BitVec w => xorShr x k := by
  intro x y h
  have zero : xorShr (x ^^^ y) k = 0#w := by
    rw [xorShr_xor]
    exact BitVec.xor_eq_zero_iff.mpr h
  exact BitVec.xor_eq_zero_iff.mp (xorShr_eq_zero hk zero)

/-- Settles O25: each line of the mix is injective, the multipliers being odd. -/
theorem splitmixOutputIsABijectionOfTheCounter : Obligations.SplitmixOutputIsABijectionOfTheCounter := by
  unfold Obligations.SplitmixOutputIsABijectionOfTheCounter
  intro c legal
  obtain ⟨-, -, -, -, ⟨s1, s2, s3⟩, -⟩ := legal
  have first : IsLeftRegular 0xBF58476D1CE4E5B9#64 :=
    isLeftRegular_of_mul_eq_one (b := 0x96DE1B173F119089#64) (by decide)
  have second : IsLeftRegular 0x94D049BB133111EB#64 :=
    isLeftRegular_of_mul_eq_one (b := 0x319642B2D24D8EC3#64) (by decide)
  refine Finite.injective_iff_bijective.mp ?_
  exact (xorShr_injective s3.1).comp (second.comp ((xorShr_injective s2.1).comp (first.comp (xorShr_injective s1.1))))

/-- Adding a constant that has an inverse visits every value: `n` additions add `n` times the constant. -/
theorem iterate_add_surjective {w : Nat} {c inv : BitVec w} (h : inv * c = 1) (x y : BitVec w) :
    ∃ n, n < 2 ^ w ∧ (c + ·)^[n] x = y := by
  refine ⟨((y - x) * inv).toNat, BitVec.isLt _, ?_⟩
  have count : ((((y - x) * inv).toNat : Nat) : BitVec w) = (y - x) * inv :=
    (BitVec.ofNat_toNat w _).trans (BitVec.setWidth_eq _)
  rw [add_left_iterate, nsmul_eq_mul, count, mul_assoc, h, mul_one]
  exact sub_add_cancel y x

/-- Settles O26: both increments are odd, so they have inverses. -/
theorem countersVisitEveryValue : Obligations.CountersVisitEveryValue := by
  unfold Obligations.CountersVisitEveryValue
  exact ⟨iterate_add_surjective (inv := 0xF1DE83E19937733D#64) (by decide),
    iterate_add_surjective (inv := 0xDC58AA5D#32) (by decide)⟩

end Sys2Proof.Machine
end

section
/-! SUPPORT. The sampler's test and result as arithmetic (44_bounded_sampler.md R166 to R170): the low half of the product
against the threshold is the test of R170, and the high half is the bounded value. -/

namespace Sys2Proof.Machine

/-! ### The product -/

set_option Elab.async false in
theorem toNat_mul_lt (x range : W32) : x.toNat * range.toNat < 2 ^ 64 :=
  (Nat.mul_lt_mul'' x.isLt range.isLt).trans_eq (by norm_num)

theorem product_toNat (x range : W32) : (product x range).toNat = x.toNat * range.toNat := by
  rw [product, zext64, zext64, BitVec.toNat_mul, BitVec.toNat_setWidth_of_le (by decide),
    BitVec.toNat_setWidth_of_le (by decide), Nat.mod_eq_of_lt (toNat_mul_lt x range)]

theorem low32_product_toNat (x range : W32) : (low32 (product x range)).toNat = x.toNat * range.toNat % 2 ^ 32 := by
  rw [low32, BitVec.toNat_setWidth, product_toNat]

theorem high32_product_toNat (x range : W32) : (high32 (product x range)).toNat = boundedValue range x := by
  have small := toNat_mul_lt x range
  rw [high32, BitVec.extractLsb'_toNat, product_toNat, Nat.shiftRight_eq_div_pow, boundedValue]
  omega

theorem zext64_high32_product (x range : W32) :
    zext64 (high32 (product x range)) = BitVec.ofNat 64 (boundedValue range x) := by
  rw [← high32_product_toNat, BitVec.ofNat_toNat, zext64]

/-- The bounded value is below the range, `x` being below `2^32` (R169). -/
theorem boundedValue_lt {range : W32} (x : W32) (nonzero : range ≠ 0) : boundedValue range x < range.toNat :=
  Nat.div_lt_of_lt_mul (Nat.mul_lt_mul_of_pos_right x.isLt (BitVec.toNat_pos_of_ne_zero nonzero))

/-! ### The tests -/

/-- R168: the threshold does not depend on the variant. -/
theorem threshold_eq (v : Variant) (range : W32) : threshold v range = threshold0 range := by
  cases v with
  | modulo => rfl
  | oneill => exact threshold1_eq_threshold0 range

theorem idealThreshold_lt {range : W32} (nonzero : range ≠ 0) : idealThreshold range < range.toNat :=
  Nat.mod_lt _ (BitVec.toNat_pos_of_ne_zero nonzero)

section
variable {range : W32} (nonzero : range ≠ 0)
include nonzero

theorem low32_product_lt_iff (v : Variant) (x : W32) :
    low32 (product x range) < threshold v range ↔ Rejects range x := by
  rw [BitVec.lt_def, low32_product_toNat, threshold_toNat v nonzero, Rejects]

/-- The first test of R166 rejects nothing the second does not: the threshold is below the range. -/
theorem low32_product_lt_range {v : Variant} {x : W32} (h : low32 (product x range) < threshold v range) :
    low32 (product x range) < range := by
  have below : threshold v range < range := by
    rw [BitVec.lt_def, threshold_toNat v nonzero]
    exact idealThreshold_lt nonzero
  exact BitVec.lt_trans h below

theorem tests_iff (v : Variant) (x : W32) :
    low32 (product x range) < range ∧ low32 (product x range) < threshold v range ↔ Rejects range x :=
  ⟨fun h => (low32_product_lt_iff nonzero v x).mp h.2, fun h =>
    have low := (low32_product_lt_iff nonzero v x).mpr h
    ⟨low32_product_lt_range nonzero low, low⟩⟩

end

section
variable {s : State} (nonzero : s.arch.range ≠ 0)
include nonzero

theorem exec_nextb_rejects (valid : s.arch.svalid = true)
    (h : Rejects s.arch.range (draw32 s.arch.src s.arch).2) :
    exec .nextb s = .next (s.rejected (threshold s.arch.var s.arch.range) (draw32 s.arch.src s.arch).1) := by
  rw [exec_nextb valid]
  exact if_pos ((tests_iff nonzero _ _).mpr h)

theorem exec_nextb_accepts (valid : s.arch.svalid = true)
    (h : ¬ Rejects s.arch.range (draw32 s.arch.src s.arch).2) :
    exec .nextb s = .next (s.completed (draw32 s.arch.src s.arch).1
      (BitVec.ofNat 64 (boundedValue s.arch.range (draw32 s.arch.src s.arch).2))) := by
  rw [exec_nextb valid, ← zext64_high32_product]
  exact if_neg (mt (tests_iff nonzero _ _).mp h)

theorem redraw_threshold_rejects (v : Variant) (h : Rejects s.arch.range (draw32 s.arch.src s.arch).2) :
    redraw (threshold v s.arch.range) s =
      .next (s.rejected (threshold v s.arch.range) (draw32 s.arch.src s.arch).1) :=
  redraw_rejects ((low32_product_lt_iff nonzero v _).mpr h)

theorem redraw_threshold_accepts (v : Variant) (h : ¬ Rejects s.arch.range (draw32 s.arch.src s.arch).2) :
    redraw (threshold v s.arch.range) s = .next (s.completed (draw32 s.arch.src s.arch).1
      (BitVec.ofNat 64 (boundedValue s.arch.range (draw32 s.arch.src s.arch).2))) := by
  rw [← zext64_high32_product]
  exact redraw_accepts (mt (low32_product_lt_iff nonzero v _).mp h)

end

/-! ### A whole NEXTB, one step a draw -/

theorem runFor_succ {n : Nat} {s t : State} (h : runFor n s = .next t) : runFor (n + 1) s = step t := by
  induction n generalizing s with
  | zero =>
    obtain rfl : s = t := Host.Outcome.next.inj h
    obtain ⟨u, hu⟩ := everyStepHasANextState s
    rw [runFor_next 0 hu, hu, runFor_zero]
  | succ n ih =>
    obtain ⟨u, hu⟩ := everyStepHasANextState s
    rw [runFor_next _ hu] at h ⊢
    exact ih h

theorem afterDraws_control (src : Source) (r : Arch) (n : Nat) : (afterDraws src r n).SameControl r := by
  induction n with
  | zero => exact ⟨rfl, rfl, rfl, rfl, rfl⟩
  | succ n ih => exact sameControl_trans (draw32_control _ _) ih

theorem rst_notMem_afterWait {host : List HostEvent} (h : .rst ∉ host) (n : Nat) : .rst ∉ afterWait^[n] host := by
  induction n with
  | zero => exact h
  | succ n ih =>
    rw [Function.iterate_succ_apply']
    cases hosts : afterWait^[n] host with
    | nil => simp [afterWait]
    | cons e rest =>
      rw [hosts] at ih
      cases e <;> simp_all [afterWait]

/-- A NEXTB after its first `n + 1` draws, all rejected. -/
def afterRejections (s : State) (ports : Ports) (rest : List HostEvent) (n : Nat) : State :=
  { s with
    arch := afterDraws s.arch.src s.arch (n + 1)
    ports := ports
    phase := .rejecting (threshold s.arch.var s.arch.range)
    completion := none
    host := afterWait^[n] rest }

/-- What a further step of it is. -/
theorem step_afterRejections {s : State} {ports : Ports} {rest : List HostEvent} (noReset : .rst ∉ rest) (n : Nat) :
    step (afterRejections s ports rest n) =
      redraw (threshold s.arch.var s.arch.range)
        { afterRejections s ports rest n with host := afterWait^[n + 1] rest } := by
  rw [Function.iterate_succ_apply']
  exact step_busy rfl fun others head => rst_notMem_afterWait noReset n (by
    have := List.mem_cons_self (a := HostEvent.rst) (l := others)
    rwa [← head] at this)

section
variable {s : State} {ports : Ports} {rest : List HostEvent} (hp : s.phase = .idle)
  (hh : s.host = .command 0x04#8 ports :: rest) (noReset : .rst ∉ rest) (valid : s.arch.svalid = true)
  (nonzero : s.arch.range ≠ 0)
include hp hh

theorem step_nextb : step s = exec .nextb { s with host := rest, ports := ports } := step_command hp hh rfl

include noReset valid nonzero

theorem runFor_rejections (n : Nat) (rejects : ∀ k, k ≤ n → Rejects s.arch.range (drawOutput s.arch.src s.arch k)) :
    runFor (n + 1) s = .next (afterRejections s ports rest n) := by
  induction n with
  | zero =>
    rw [runFor_succ (runFor_zero s), step_nextb hp hh]
    exact exec_nextb_rejects (s := { s with host := rest, ports := ports }) nonzero valid (rejects 0 le_rfl)
  | succ n ih =>
    obtain ⟨-, range, src, -, -⟩ := afterDraws_control s.arch.src s.arch (n + 1)
    rw [runFor_succ (ih fun k hk => rejects k (by omega)), step_afterRejections noReset]
    have next := redraw_threshold_rejects (s := { afterRejections s ports rest n with host := afterWait^[n + 1] rest })
      (range ▸ nonzero) s.arch.var
    simp only [afterRejections, range, src] at next ⊢
    exact next (rejects (n + 1) le_rfl)

/-- The draw after `n` rejected ones, if it is accepted, completes NEXTB. -/
theorem runFor_accepted (n : Nat) (rejects : ∀ k, k < n → Rejects s.arch.range (drawOutput s.arch.src s.arch k))
    (accepts : ¬ Rejects s.arch.range (drawOutput s.arch.src s.arch n)) :
    runFor (n + 1) s = .next { s with
      arch := afterDraws s.arch.src s.arch (n + 1)
      ports := ports
      phase := .idle
      completion := some {
        st := .ok, r := BitVec.ofNat 64 (boundedValue s.arch.range (drawOutput s.arch.src s.arch n)) }
      host := afterWait^[n] rest } := by
  cases n with
  | zero =>
    rw [runFor_succ (runFor_zero s), step_nextb hp hh]
    exact exec_nextb_accepts (s := { s with host := rest, ports := ports }) nonzero valid accepts
  | succ n =>
    obtain ⟨-, range, src, -, -⟩ := afterDraws_control s.arch.src s.arch (n + 1)
    rw [runFor_succ (runFor_rejections hp hh noReset valid nonzero n fun k hk => rejects k (by omega)),
      step_afterRejections noReset]
    have last := redraw_threshold_accepts (s := { afterRejections s ports rest n with host := afterWait^[n + 1] rest })
      (range ▸ nonzero) s.arch.var
    simp only [afterRejections, range, src] at last ⊢
    exact last accepts

end

/-- Settles O31: the completion of `runFor_accepted`, of a block that was idle. -/
theorem nextbReturnsItsFirstAcceptedDraw : Obligations.NextbReturnsItsFirstAcceptedDraw := by
  unfold Obligations.NextbReturnsItsFirstAcceptedDraw
  intro s ports rest n hp hh noReset valid nonzero rejects accepts
  rw [runFor_accepted hp hh noReset valid nonzero n rejects accepts, hp]

/-- Settles O32: the state of `runFor_rejections`. -/
theorem nextbStaysBusyWhileEveryDrawIsRejected : Obligations.NextbStaysBusyWhileEveryDrawIsRejected := by
  unfold Obligations.NextbStaysBusyWhileEveryDrawIsRejected
  intro s ports rest n hp hh noReset valid nonzero rejects
  exact ⟨_, _, runFor_rejections hp hh noReset valid nonzero n rejects, rfl, rfl, rfl⟩

/-! ### What a draw is, and what it depends on (R165, R168, R171) -/

theorem exec_nextb_arch {s t : State} (valid : s.arch.svalid = true) (ht : exec .nextb s = .next t) :
    t.arch = (draw32 s.arch.src s.arch).1 := by
  rw [exec_nextb valid] at ht
  split_ifs at ht <;> cases ht <;> rfl

/-- Settles O33: NEXT of the source bank and both kinds of draw leave what its transition leaves. -/
theorem drawIsTheSourceBanksNext : Obligations.DrawIsTheSourceBanksNext := by
  unfold Obligations.DrawIsTheSourceBanksNext
  intro s seeded
  refine ⟨_, exec_nextInstr_seeded seeded, ?_, fun valid => ?_, fun limit => ?_⟩
  · rw [State.completed_completion, ← draw32_snd]
    rfl
  · obtain ⟨t, ht⟩ := exec_next .nextb s
    exact ⟨t, ht, (exec_nextb_arch valid ht).trans (draw32_fst _ _)⟩
  · obtain ⟨t, ht⟩ := redraw_next limit s
    exact ⟨t, ht, redraw_arch ht⟩

/-- A draw neither reads nor writes VAR. -/
theorem draw32_withVar (src : Source) (r : Arch) (v : Variant) :
    draw32 src { r with var := v } = ({ (draw32 src r).1 with var := v }, (draw32 src r).2) := by cases src <;> rfl

/-- Settles O34: the draw, the product and, by R168, the threshold are the same. -/
theorem variantIsNotObservableThroughNextb : Obligations.VariantIsNotObservableThroughNextb := by
  unfold Obligations.VariantIsNotObservableThroughNextb
  intro s v other
  have drawn : (draw32 other.arch.src other.arch).1 = { (draw32 s.arch.src s.arch).1 with var := v } :=
    congrArg Prod.fst (draw32_withVar s.arch.src s.arch v)
  have product : drawProduct other.arch = drawProduct s.arch := by
    simp only [drawProduct, other, draw32_withVar]
  refine ⟨fun valid nonzero t ht => ?first, fun invalid => ?noSampler, fun limit t ht => ?later⟩
  case first =>
    rw [exec_nextb valid, threshold_eq] at ht
    rw [exec_nextb (s := other) valid, threshold_eq, product, drawn]
    split at ht
    next rejects =>
      cases ht
      exact if_pos rejects
    next accepts =>
      cases ht
      exact if_neg accepts
  case noSampler =>
    rw [exec_nextb_noSampler invalid, exec_nextb_noSampler (s := other) invalid]
    exact ⟨failsWith_fail _ _, failsWith_fail _ _⟩
  case later =>
    rcases redraw_cases ht with ⟨rejects, rfl⟩ | ⟨accepts, rfl⟩
    · rw [redraw_rejects (s := other) (product ▸ rejects), drawn]
      rfl
    · rw [redraw_accepts (s := other) (product ▸ accepts), drawn, product]
      rfl

theorem zext64_high32_product_toNat (x range : W32) :
    (zext64 (high32 (product x range))).toNat = boundedValue range x := by
  rw [zext64, BitVec.toNat_setWidth_of_le (by decide), high32_product_toNat]

/-- Settles O35: what NEXTB completes with is the bounded value of a draw. -/
theorem nextbResultsAreBelowTheRange : Obligations.NextbResultsAreBelowTheRange := by
  unfold Obligations.NextbResultsAreBelowTheRange
  intro s t r nonzero completes
  have bounded {arch : Arch} {x : W32}
      (h : t = s.completed arch (zext64 (high32 (product x s.arch.range)))) : r.toNat < s.arch.range.toNat := by
    subst h
    cases completes
    rw [zext64_high32_product_toNat]
    exact boundedValue_lt x nonzero
  refine ⟨fun ht => ?first, fun limit ht => ?later⟩
  case first =>
    rcases execNextb_cases ht with ⟨_, rfl⟩ | ⟨_, ⟨_, _, rfl⟩ | ⟨_, done⟩⟩
    · cases completes
    · cases completes
    · exact bounded done
  case later =>
    rcases redraw_cases ht with ⟨_, rfl⟩ | ⟨_, done⟩
    · cases completes
    · exact bounded done

/-- Settles O39: the draw reads bank SRC only, and the tests its output and the range. -/
theorem nextbDependsOnRangeAndSourceOnly : Obligations.NextbDependsOnRangeAndSourceOnly := by
  unfold Obligations.NextbDependsOnRangeAndSourceOnly
  intro s u s' u' range src words
  obtain ⟨out, left⟩ := draw32_congr s.arch.src words
  have product : drawProduct u.arch = drawProduct s.arch := by rw [drawProduct, drawProduct, ← src, ← range, out]
  refine ⟨fun valid valid' nonzero hs hu => ?first, fun limit hs hu => ?later⟩
  case first =>
    rw [exec_nextb valid, threshold_eq] at hs
    rw [exec_nextb valid', threshold_eq, product, ← range, ← src] at hu
    split at hs
    next rejects =>
      rw [if_pos rejects] at hu
      cases hs
      cases hu
      exact ⟨rfl, rfl, left⟩
    next accepts =>
      rw [if_neg accepts] at hu
      cases hs
      cases hu
      exact ⟨rfl, rfl, left⟩
  case later =>
    rcases redraw_cases hs with ⟨rejects, rfl⟩ | ⟨accepts, rfl⟩
    · rw [redraw_rejects (product ▸ rejects), ← src] at hu
      cases hu
      exact ⟨rfl, rfl, left⟩
    · rw [redraw_accepts (product ▸ accepts), product, ← src] at hu
      cases hu
      exact ⟨rfl, rfl, left⟩

end Sys2Proof.Machine
end

section
/-! SUPPORT. Edge cases and uniformity of the sampler (44_bounded_sampler.md R167, R170). The count is made over the natural
numbers: the accepted draws of one value are as many multiples of `R` as fit between the threshold and `2^32`. -/

namespace Sys2Proof.Machine

/-! ### Edge cases -/

set_option Elab.async false in
theorem not_rejects_of_threshold_zero {range : W32} (x : W32) (zero : idealThreshold range = 0) :
    ¬ Rejects range x := by
  rw [Rejects, zero]
  exact Nat.not_lt_zero _

/-- R167: a power of two divides `2^32`. -/
theorem idealThreshold_twoPow {range : W32} {k : Nat} (hk : k ≤ 31) (h : range.toNat = 2 ^ k) :
    idealThreshold range = 0 := by
  rw [idealThreshold, h]
  exact Nat.mod_eq_zero_of_dvd (pow_dvd_pow 2 (by omega))

/-- R167: at a power of two the bounded value is the top bits of the draw. -/
theorem boundedValue_twoPow {range : W32} {k : Nat} (x : W32) (hk : k ≤ 31) (h : range.toNat = 2 ^ k) :
    BitVec.ofNat 64 (boundedValue range x) = x.setWidth 64 >>> (32 - k) := by
  have split : (2 : Nat) ^ 32 = 2 ^ (32 - k) * 2 ^ k := by rw [← pow_add]; congr 1; omega
  have value : boundedValue range x = x.toNat / 2 ^ (32 - k) := by
    rw [boundedValue, h, split, Nat.mul_div_mul_right _ _ (by positivity)]
  apply BitVec.eq_of_toNat_eq
  have small : x.toNat / 2 ^ (32 - k) < 2 ^ 64 := (Nat.div_le_self _ _).trans_lt (x.isLt.trans (by norm_num))
  rw [value, BitVec.toNat_ofNat, Nat.mod_eq_of_lt small, BitVec.toNat_ushiftRight,
    BitVec.toNat_setWidth_of_le (by decide), Nat.shiftRight_eq_div_pow]

theorem boundedValue_zero (range : W32) : boundedValue range 0 = 0 := by simp [boundedValue]

/-- R167: at the largest range the low half of the product is `2^32 - x`, and the threshold is 1. -/
theorem rejects_largest_iff (x : W32) : Rejects 0xFFFFFFFF#32 x ↔ x = 0#32 := by
  have below := x.isLt
  have range : (0xFFFFFFFF#32).toNat = 4294967295 := by simp
  rw [Rejects, idealThreshold, range, ← BitVec.toNat_inj, BitVec.toNat_zero, Nat.mul_comm]
  generalize x.toNat = n at below ⊢
  omega

/-- Settles O36: what the tests and the result are at each edge. -/
theorem samplerEdgeCases : Obligations.SamplerEdgeCases := by
  unfold Obligations.SamplerEdgeCases
  intro s valid nonzero x drawn low
  have accepted (accepts : ¬ Rejects s.arch.range x) :
      PerformedWith drawn (BitVec.ofNat 64 (boundedValue s.arch.range x)) s (exec .nextb s) :=
    performedWith_iff.mpr (exec_nextb_accepts nonzero valid accepts)
  have power {k : Nat} (hk : k ≤ 31) (h : s.arch.range.toNat = 2 ^ k) :
      PerformedWith drawn (x.setWidth 64 >>> (32 - k)) s (exec .nextb s) := by
    rw [← boundedValue_twoPow x hk h]
    exact accepted (not_rejects_of_threshold_zero x (idealThreshold_twoPow hk h))
  have rejected (rejects : Rejects s.arch.range x) :
      exec .nextb s = .next (s.rejected (threshold s.arch.var s.arch.range) drawn) :=
    exec_nextb_rejects nonzero valid rejects
  refine ⟨fun one => ?one, fun largest => ⟨fun zero => ?largestZero, fun other => ?largestOther⟩,
    fun k hk h => power hk h, fun boundary => ?boundary, fun zero exact' => ?zeroExact, fun zero inexact => ?zeroInexact⟩
  case one =>
    have range : s.arch.range.toNat = 2 ^ 0 := by rw [one]; rfl
    have value : boundedValue s.arch.range x = 0 := by
      rw [boundedValue, range, Nat.pow_zero, Nat.mul_one, Nat.div_eq_of_lt x.isLt]
    have result := accepted (not_rejects_of_threshold_zero x (idealThreshold_twoPow (by decide) range))
    rwa [value] at result
  case largestZero =>
    have limit : threshold s.arch.var s.arch.range = 1 := by rw [threshold_eq, largest]; decide
    exact limit ▸ rejected (largest ▸ (rejects_largest_iff x).mpr zero)
  case largestOther => exact ⟨_, accepted (largest ▸ mt (rejects_largest_iff x).mp other)⟩
  case boundary =>
    refine ⟨_, accepted (Nat.not_lt.mpr ?_)⟩
    rcases boundary with atThreshold | atRange
    · exact atThreshold.ge
    · exact (idealThreshold_lt nonzero).le.trans_eq atRange.symm
  case zeroExact =>
    have result := accepted (not_rejects_of_threshold_zero x exact')
    rwa [zero, boundedValue_zero] at result
  case zeroInexact =>
    refine ⟨_, _, rejected ?_, rfl⟩
    rw [zero, Rejects]
    simpa using Nat.pos_of_ne_zero inexact

/-! ### Uniformity -/

section
variable {L R : Nat} (hR : 0 < R)
include hR

/-- Of the multiples of `R`, `q` lie in a stretch of length `R * q`. -/
theorem card_multiples (N q : Nat) :
    ∃ a, ∀ x, N ≤ x * R ∧ x * R < N + R * q ↔ x ∈ Finset.Ico a (a + q) := by
  have below : ∀ x M, x < (M + R - 1) / R ↔ x * R < M := by
    intro x M
    rw [← Nat.succ_le_iff, Nat.le_div_iff_mul_le hR, Nat.succ_mul]
    omega
  refine ⟨(N + R - 1) / R, fun x => ?_⟩
  have shift : (N + R - 1) / R + q = (N + R * q + R - 1) / R := by
    rw [← Nat.add_mul_div_left _ _ hR]
    congr 1
    omega
  have start := not_congr (below x N)
  rw [not_lt, not_lt] at start
  rw [Finset.mem_Ico, shift, below]
  exact and_congr_left' start.symm

/-- The accepted draws of one value `y`: `2^32 - T(R)` is a multiple of `R`, so they are `floor(2^32 / R)`. -/
theorem card_accepted {y : Nat} (hy : y < R) :
    ((Finset.range L).filter fun x => ¬ x * R % L < L % R ∧ x * R / L = y).card = L / R := by
  obtain ⟨a, ha⟩ := card_multiples hR (y * L + L % R) (L / R)
  have end_ : y * L + L % R + R * (L / R) = (y + 1) * L := by
    rw [Nat.add_assoc, Nat.mod_add_div, Nat.succ_mul]
  suffices h : ((Finset.range L).filter fun x => ¬ x * R % L < L % R ∧ x * R / L = y) = Finset.Ico a (a + L / R) by
    rw [h, Nat.card_Ico, Nat.add_sub_cancel_left]
  ext x
  rw [← ha, end_, Finset.mem_filter, Finset.mem_range, not_lt]
  constructor
  · rintro ⟨hx, low, rfl⟩
    have whole := Nat.div_add_mod' (x * R) L
    have high := Nat.mod_lt (x * R) (by omega : 0 < L)
    rw [Nat.succ_mul]
    omega
  · rintro ⟨low, high⟩
    have value : x * R / L = y := Nat.div_eq_of_lt_le (by omega) high
    have whole := Nat.div_add_mod' (x * R) L
    have bound : x * R < L * R := high.trans_le ((Nat.mul_le_mul_right L hy).trans_eq (Nat.mul_comm R L))
    rw [value] at whole
    exact ⟨Nat.lt_of_mul_lt_mul_right bound, by omega, value⟩

/-- The rejected draws are those no value has. -/
theorem card_rejected : ((Finset.range L).filter fun x => x * R % L < L % R).card = L % R := by
  have accepted : ((Finset.range L).filter fun x => ¬ x * R % L < L % R).card = R * (L / R) := by
    have values : ∀ x ∈ (Finset.range L).filter fun x => ¬ x * R % L < L % R, x * R / L ∈ Finset.range R := by
      intro x hx
      have hx : x < L := Finset.mem_range.mp (Finset.mem_filter.mp hx).1
      exact Finset.mem_range.mpr (Nat.div_lt_of_lt_mul (Nat.mul_lt_mul_of_pos_right hx hR))
    rw [Finset.card_eq_sum_card_fiberwise values]
    simp only [Finset.filter_filter]
    rw [Finset.sum_congr rfl fun y hy => card_accepted hR (Finset.mem_range.mp hy), Finset.sum_const,
      Finset.card_range, smul_eq_mul]
  have total := Finset.card_filter_add_card_filter_not (s := Finset.range L) fun x => x * R % L < L % R
  rw [accepted, Finset.card_range] at total
  have := Nat.mod_add_div L R
  omega

end

/-- Counting words by counting their values. -/
theorem ncard_setOf_toNat {w : Nat} (P : Nat → Prop) [DecidablePred P] :
    Set.ncard { x : BitVec w | P x.toNat } = ((Finset.range (2 ^ w)).filter P).card := by
  rw [← Set.ncard_image_of_injective _ (BitVec.toNat_injective (n := w)), ← Set.ncard_coe_finset]
  congr 1
  ext n
  simp only [Set.mem_image, Set.mem_ofPred_eq, Finset.coe_filter, Finset.mem_range]
  constructor
  · rintro ⟨x, hx, rfl⟩
    exact ⟨x.isLt, hx⟩
  · rintro ⟨hn, hP⟩
    have value : (BitVec.ofNat w n).toNat = n := by rw [BitVec.toNat_ofNat, Nat.mod_eq_of_lt hn]
    exact ⟨BitVec.ofNat w n, value.symm ▸ hP, value⟩

section
variable {range : W32} (nonzero : range ≠ 0)
include nonzero

theorem ncard_rejected (v : Variant) :
    Set.ncard { x : W32 | low32 (product x range) < threshold v range } = 2 ^ 32 % range.toNat := by
  simp only [low32_product_lt_iff nonzero]
  exact (ncard_setOf_toNat fun n => n * range.toNat % 2 ^ 32 < 2 ^ 32 % range.toNat).trans
    (card_rejected (BitVec.toNat_pos_of_ne_zero nonzero))

theorem ncard_accepted (v : Variant) {y : W32} (hy : y < range) :
    Set.ncard { x : W32 | ¬ low32 (product x range) < threshold v range ∧ high32 (product x range) = y } =
      2 ^ 32 / range.toNat := by
  simp only [low32_product_lt_iff nonzero, ← BitVec.toNat_inj (x := high32 _), high32_product_toNat]
  exact (ncard_setOf_toNat fun n => ¬ n * range.toNat % 2 ^ 32 < 2 ^ 32 % range.toNat ∧
    n * range.toNat / 2 ^ 32 = y.toNat).trans (card_accepted (BitVec.toNat_pos_of_ne_zero nonzero) hy)

end

/-- Settles O37: the counts of the rejected draws and of the accepted draws of one value. -/
theorem acceptedDrawsAreUniform : Obligations.AcceptedDrawsAreUniform := by
  unfold Obligations.AcceptedDrawsAreUniform
  exact fun range v nonzero => ⟨fun x => and_iff_right_of_imp (low32_product_lt_range nonzero),
    ncard_rejected nonzero v, fun y hy => ncard_accepted nonzero v hy⟩

/-- A remainder is less than half of what is divided. -/
theorem two_mul_mod_lt {L R : Nat} (hR : 0 < R) (hL : R ≤ L) : 2 * (L % R) < L := by
  have below := Nat.mod_lt L hR
  have whole := Nat.mod_add_div L R
  have once : R * 1 ≤ R * (L / R) := Nat.mul_le_mul_left R (Nat.div_pos hL hR)
  omega

/-- Settles O38: a draw of 1 has the range itself as low half, and the rejected draws are `2^32 mod R`. -/
theorem fewerThanHalfOfTheDrawsAreRejected : Obligations.FewerThanHalfOfTheDrawsAreRejected := by
  unfold Obligations.FewerThanHalfOfTheDrawsAreRejected
  intro range v nonzero
  have positive := BitVec.toNat_pos_of_ne_zero nonzero
  rw [low32_product_lt_iff nonzero, ncard_rejected nonzero]
  refine ⟨?_, two_mul_mod_lt positive range.isLt.le, Nat.mod_lt _ positive⟩
  have low : (1 : W32).toNat * range.toNat % 2 ^ 32 = range.toNat :=
    (congrArg (· % 2 ^ 32) (Nat.one_mul _)).trans (Nat.mod_eq_of_lt range.isLt)
  rw [Rejects, low, not_lt]
  exact (idealThreshold_lt nonzero).le

end Sys2Proof.Machine
end

section
/-! SUPPORT. The conversions' results (40_conversions.md R101 to R107): `exact_f64` field by field, the two formulas of
R103 and R105 as sums of exact values, and the sets of results. -/

namespace Sys2Proof.Machine

/-! ### `exact_f64` (R101) -/

set_option Elab.async false in
/-- The exponent field of a positive pattern. -/
theorem signedPattern_exponent {expo frac : Nat} (he : expo < 0x7FF) (hf : frac < 2 ^ 52) :
    ((signedPattern false (expo * 2 ^ 52 + frac)).extractLsb' 52 11).toNat = expo := by
  rw [BitVec.extractLsb'_toNat, signedPattern, BitVec.toNat_ofNat, Nat.shiftRight_eq_div_pow]
  simp only [Bool.false_eq_true, if_false]
  omega

/-- The fields of a value that is not zero: its exponent, and its significand without the leading bit. -/
theorem exactF64_fields {n e : Nat} (hn : n ≠ 0) (hn' : n < 2 ^ 53) :
    ∃ frac, n * 2 ^ (52 - Nat.log2 n) = 2 ^ 52 + frac ∧ frac < 2 ^ 52 ∧
      exactF64 n e = signedPattern false ((1023 + Nat.log2 n - e) * 2 ^ 52 + frac) := by
  obtain ⟨-, hlow, hhigh⟩ := magnitudeBits_normal (e := 0) hn hn' (by decide) (by decide)
  refine ⟨n * 2 ^ (52 - Nat.log2 n) - 2 ^ 52, (Nat.add_sub_cancel' hlow).symm, by omega, ?_⟩
  have frac : n * 2 ^ (52 - Nat.log2 n) % 2 ^ 52 = n * 2 ^ (52 - Nat.log2 n) - 2 ^ 52 := by
    generalize n * 2 ^ (52 - Nat.log2 n) = m at hlow hhigh
    omega
  simp only [exactF64, hn, if_false, frac, signedPattern, Bool.false_eq_true, Nat.zero_add]

theorem exactF64_zero (e : Nat) : exactF64 0 e = 0 := rfl

/-- Settles O41: the pattern of `exactF64_fields` is read back field by field. -/
theorem exactF64IsExact : Obligations.ExactF64IsExact := by
  unfold Obligations.ExactF64IsExact
  refine fun n e hn he => ⟨fun zero => zero ▸ exactF64_zero e, fun nonzero => ?_⟩
  have log := log2_lt_53 hn
  obtain ⟨frac, mant, small, pattern⟩ := exactF64_fields (e := e) nonzero hn
  rw [pattern, signedPattern_exponent (by omega) small, f64FromBits_fields _ (by omega) small, if_neg (by omega), mant]
  refine ⟨by omega, by omega, ?_⟩
  congr 1
  omega

/-- R106: different significands have different patterns. -/
theorem exactF64_injective {n m e : Nat} (hn : n < 2 ^ 53) (hm : m < 2 ^ 53) (he : e ≤ 64)
    (h : exactF64 n e = exactF64 m e) : n = m := by
  have nonzero {k : Nat} (hk : k < 2 ^ 53) (hk0 : k ≠ 0) : exactF64 k e ≠ 0 := by
    intro zero
    obtain ⟨normal, -⟩ := (exactF64IsExact k e hk he).2 hk0
    rw [zero] at normal
    exact absurd normal (by decide)
  by_cases n0 : n = 0
  · by_contra other
    exact nonzero hm (fun m0 => other (n0.trans m0.symm)) (h.symm.trans (n0 ▸ exactF64_zero e))
  by_cases m0 : m = 0
  · exact absurd (h.trans (m0 ▸ exactF64_zero e)) (nonzero hn n0)
  obtain ⟨-, -, valueN⟩ := (exactF64IsExact n e hn he).2 n0
  obtain ⟨-, -, valueM⟩ := (exactF64IsExact m e hm he).2 m0
  rw [h, valueM] at valueN
  obtain ⟨-, mant, expo⟩ := F64.fin.inj valueN
  have log : Nat.log2 n = Nat.log2 m := by omega
  rw [log] at mant
  exact (Nat.eq_of_mul_eq_mul_right (by positivity) mant).symm

/-- R106: below 1.0 the exponent field is below 1023. -/
theorem exactF64_unit {n e : Nat} (hn : n < 2 ^ 53) (hne : n < 2 ^ e) (he : e ≤ 64) :
    exactF64 n e = 0 ∨ (0x0010000000000000 ≤ (exactF64 n e).toNat ∧ (exactF64 n e).toNat < 0x3FF0000000000000) := by
  by_cases n0 : n = 0
  · exact .inl (n0 ▸ exactF64_zero e)
  · have log := (Nat.log2_lt n0).mpr hne
    obtain ⟨frac, -, small, pattern⟩ := exactF64_fields (e := e) n0 hn
    rw [pattern, signedPattern, BitVec.toNat_ofNat]
    simp only [Bool.false_eq_true, if_false]
    right
    omega

/-! ### CVT.BITCAST (R103) -/

/-- The double of the bit cast is `1 + k * 2^-52`: its fraction is the high 52 bits of the operand. -/
theorem bitcast_pattern (x : W64) :
    0x3FF0000000000000#64 ||| (x >>> 12) = exactF64 (2 ^ 52 + x.toNat / 2 ^ 12) 52 := by
  have shifted : (x >>> 12).toNat = x.toNat / 2 ^ 12 := by rw [BitVec.toNat_ushiftRight, Nat.shiftRight_eq_div_pow]
  have small : x.toNat / 2 ^ 12 < 2 ^ 52 := by omega
  generalize x.toNat / 2 ^ 12 = k at shifted small
  have log : Nat.log2 (2 ^ 52 + k) = 52 := (Nat.log2_eq_iff (by omega)).mpr ⟨by omega, by omega⟩
  obtain ⟨frac, mant, -, pattern⟩ := exactF64_fields (n := 2 ^ 52 + k) (e := 52) (by omega) (by omega)
  rw [log, Nat.sub_self, Nat.pow_zero, Nat.mul_one, Nat.add_left_cancel_iff] at mant
  have one : (0x3FF0000000000000#64).toNat = 2 ^ 52 * 1023 := by simp
  apply BitVec.eq_of_toNat_eq
  rw [BitVec.toNat_or, shifted, one, ← Nat.two_pow_add_eq_or_of_lt small, pattern, log, ← mant, signedPattern,
    BitVec.toNat_ofNat]
  simp only [Bool.false_eq_true, if_false]
  omega

theorem f64One_eq_dyadic : f64One = dyadic (2 ^ 52) (-52) := by decide

/-- Subtracting 1.0 is adding its negative. -/
theorem f64Sub_one (p : W64) : f64Sub p f64One = f64Add p (dyadic (-2 ^ 52) (-52)) := by
  have negated : negValue (f64FromBits f64One) = f64FromBits (dyadic (-2 ^ 52) (-52)) := by decide
  rw [f64Sub, f64Add, negated]

theorem toDoubleBitcast_eq_exactF64 (x : W64) : toDoubleBitcast x = exactF64 (x.toNat / 2 ^ 12) 52 := by
  have hk : x.toNat / 2 ^ 12 < 2 ^ 52 := by omega
  rw [toDoubleBitcast, f64Sub_one, bitcast_pattern, exactF64_eq_dyadic (by omega) (by decide),
    Nat.cast_ofNat, f64Add_dyadic (by omega) (by decide) (by omega) (by decide),
    exactF64_eq_dyadic (by omega) (by decide)]
  congr 1
  omega

/-- Scaling a significand up by 2 against its exponent leaves the value. -/
theorem exactF64_double {k : Nat} (hk : k < 2 ^ 52) : exactF64 (k * 2) 53 = exactF64 k 52 := by
  have scaled := dyadic_scale (i := k) (e := -52) (by omega) (by decide) 1
  rw [exactF64_eq_dyadic (by omega) (by decide), exactF64_eq_dyadic (by omega) (by decide)]
  push_cast
  rw [← scaled]
  norm_num

theorem exec_cvtBitcast (s : State) : exec .cvtBitcast s = complete s.arch (toDoubleBitcast s.ports.a) s := rfl

/-- Bits 63:11 of a word with bit 11 cleared. -/
theorem clearBit11_div (x : W64) : (x &&& ~~~0x800#64).toNat / 2 ^ 11 = x.toNat / 2 ^ 12 * 2 := by
  have bits : (x &&& ~~~0x800#64) >>> 11 = (x >>> 12) <<< 1 := by
    have mask : 0x800#64 = BitVec.twoPow 64 11 := by decide
    apply BitVec.eq_of_getLsbD_eq
    intro i hi
    rw [mask]
    rcases i with - | i
    · simp
    · simpa [hi, show 11 + (i + 1) = 12 + i by omega] using fun set => ⟨BitVec.lt_of_getLsbD set, by omega⟩
  have values := congrArg BitVec.toNat bits
  rw [BitVec.toNat_ushiftRight, Nat.shiftRight_eq_div_pow, BitVec.toNat_shiftLeft, BitVec.toNat_ushiftRight,
    Nat.shiftRight_eq_div_pow, Nat.shiftLeft_eq] at values
  omega

/-- Settles O43: the sum is exact, and clearing bit 11 makes CVT.MUL's significand twice CVT.BITCAST's. -/
theorem cvtBitcastIsExact : Obligations.CvtBitcastIsExact := by
  unfold Obligations.CvtBitcastIsExact
  refine ⟨by decide, fun s => ⟨?performed, ?formula, ?mul⟩⟩
  case performed =>
    rw [exec_cvtBitcast, toDoubleBitcast_eq_exactF64]
    exact performedWith_complete _ _ _
  case formula => exact toDoubleBitcast_eq_exactF64 _
  case mul =>
    rw [toDoubleBitcast_eq_exactF64, toDoubleMul_eq_exactF64, clearBit11_div, exactF64_double (by omega)]

/-! ### CVT.D52 (R105) -/

/-- The default `D52_OFFSET`, `0.5 + 2^-53` (R9, R105). -/
theorem d52Offset_eq_dyadic : config.d52Offset = dyadic (2 ^ 52 + 1) (-53) := by decide

theorem d52Scale2_eq_dyadic : config.d52Scale2 = dyadic 1 (-52) := by decide

/-- R105: counted in units of `2^-53`, every intermediate result is an integer below `2^53`. -/
theorem toDoubleD52_eq_exactF64 (x : W32) {lo20 : Nat} (hlo : lo20 < 2 ^ 20) :
    toDoubleD52 config x lo20 = exactF64 ((x ^^^ 0x80000000#32).toNat * 2 ^ 21 + lo20 * 2 + 1) 53 := by
  have hu := toNat_xor_topBit x
  have hlt := (x ^^^ 0x80000000#32).isLt
  have high : f64Mul (intToF64 (s32 x)) f64TwoPowNeg32 = dyadic (s32 x * 2 ^ 21) (-53) := by
    rw [f64TwoPowNeg32_eq_dyadic, f64Mul_intToF64_twoPow (by omega) (by decide)]
    exact (dyadic_scale (i := s32 x) (e := -32) (by omega) (by decide) 21).symm
  have low : f64Mul (intToF64 (lo20 : Int)) config.d52Scale2 = dyadic (lo20 * 2) (-53) := by
    rw [d52Scale2_eq_dyadic, f64Mul_intToF64_twoPow (by omega) (by decide)]
    exact (dyadic_scale (i := lo20) (e := -52) (by omega) (by decide) 1).symm
  rw [toDoubleD52, high, low, d52Offset_eq_dyadic, f64Add_dyadic (by omega) (by decide) (by omega) (by decide),
    f64Add_dyadic (by omega) (by omega) (by omega) (by decide), exactF64_eq_dyadic (by omega) (by decide)]
  congr 1
  omega

theorem exec_cvtD52 (s : State) :
    exec .cvtD52 s = complete s.arch (toDoubleD52 config (low32 s.ports.a) (low20 s.ports.b)) s := rfl

theorem low20_eq_mod (b : W64) : low20 b = b.toNat % 2 ^ 20 := by
  rw [low20, BitVec.extractLsb'_toNat, Nat.shiftRight_zero]

theorem low20_lt (b : W64) : low20 b < 2 ^ 20 := (low20_eq_mod b).trans_lt (Nat.mod_lt _ (by decide))

/-- Settles O45: the sums are exact, and only `b[19:0]` enters them. -/
theorem cvtD52IsExact : Obligations.CvtD52IsExact := by
  unfold Obligations.CvtD52IsExact
  refine ⟨by decide, fun s => ?_⟩
  rw [exec_cvtD52, toDoubleD52_eq_exactF64 _ (low20_lt _), low20_eq_mod]
  exact performedWith_complete _ _ _

/-! ### The results (R106, R107) -/

/-- Settles O46: every result is an `exact_f64` of a significand below `2^e`. -/
theorem conversionResultsLieInTheUnitInterval : Obligations.ConversionResultsLieInTheUnitInterval := by
  unfold Obligations.ConversionResultsLieInTheUnitInterval
  intro i hi s t c ht hc
  have result {v : W64} {n e : Nat} (computes : exec i s = complete s.arch v s) (exact' : v = exactF64 n e)
      (hn : n < 2 ^ 53) (hne : n < 2 ^ e) (he : e ≤ 64) :
      c.r = 0 ∨ (0x0010000000000000 ≤ c.r.toNat ∧ c.r.toNat < 0x3FF0000000000000) := by
    rw [computes] at ht
    cases ht
    cases hc
    exact exact' ▸ exactF64_unit hn hne he
  have u := (low32 s.ports.a ^^^ 0x80000000#32).isLt
  have lo20 := low20_lt s.ports.b
  simp only [List.mem_cons, List.not_mem_nil, or_false] at hi
  rcases hi with rfl | rfl | rfl | rfl
  · exact result (exec_cvtMul s) (toDoubleMul_eq_exactF64 _) (by omega) (by omega) (by decide)
  · exact result (exec_cvtBitcast s) (toDoubleBitcast_eq_exactF64 _) (by omega) (by omega) (by decide)
  · exact result (exec_cvtD32 s) (toDoubleD32_eq_exactF64 _) (by omega) u (by decide)
  · exact result (exec_cvtD52 s) (toDoubleD52_eq_exactF64 _ lo20) (by omega) (by omega) (by decide)

/-- A significand put at the top of an operand is found there. -/
theorem ofNat_mul_div {n k : Nat} (h : n * 2 ^ k < 2 ^ 64) : (BitVec.ofNat 64 (n * 2 ^ k)).toNat / 2 ^ k = n := by
  rw [BitVec.toNat_ofNat, Nat.mod_eq_of_lt h, Nat.mul_div_cancel _ (by positivity)]

/-- Turning the top bit twice leaves a word. -/
theorem ofNat_xor_topBit {u : Nat} (h : u < 2 ^ 32) :
    (BitVec.ofNat 32 u ^^^ 0x80000000#32 ^^^ 0x80000000#32).toNat = u := by
  rw [BitVec.xor_assoc, BitVec.xor_self, BitVec.xor_zero, BitVec.toNat_ofNat, Nat.mod_eq_of_lt h]

/-- Settles O47: each significand of a set is that of some operand, and different ones have different patterns. -/
theorem conversionResultSets : Obligations.ConversionResultSets := by
  unfold Obligations.ConversionResultSets
  simp only [toDoubleMul_eq_exactF64, toDoubleBitcast_eq_exactF64, toDoubleD32_eq_exactF64,
    toDoubleD52_eq_exactF64 _ (low20_lt _)]
  refine ⟨fun p => ⟨?_, ?_⟩, fun p => ⟨?_, ?_⟩, fun p => ⟨?_, ?_⟩, fun p => ⟨?_, ?_⟩,
    fun n m e hn hm he h => exactF64_injective hn hm he h⟩
  · rintro ⟨x, hx⟩
    exact ⟨_, by omega, hx⟩
  · rintro ⟨n, hn, hp⟩
    exact ⟨BitVec.ofNat 64 (n * 2 ^ 11), by rwa [ofNat_mul_div (by omega)]⟩
  · rintro ⟨x, hx⟩
    exact ⟨_, by omega, hx⟩
  · rintro ⟨k, hk, hp⟩
    exact ⟨BitVec.ofNat 64 (k * 2 ^ 12), by rwa [ofNat_mul_div (by omega)]⟩
  · rintro ⟨x, hx⟩
    exact ⟨_, (x ^^^ 0x80000000#32).isLt, hx⟩
  · rintro ⟨u, hu, hp⟩
    exact ⟨BitVec.ofNat 32 u ^^^ 0x80000000#32, by rwa [ofNat_xor_topBit hu]⟩
  · rintro ⟨x, b, hp⟩
    have u := (x ^^^ 0x80000000#32).isLt
    have lo20 := low20_lt b
    exact ⟨_, by omega, by omega, hp⟩
  · rintro ⟨n, hn, odd, hp⟩
    refine ⟨BitVec.ofNat 32 (n / 2 ^ 21) ^^^ 0x80000000#32, BitVec.ofNat 64 (n % 2 ^ 21 / 2), ?_⟩
    have lo20 : low20 (BitVec.ofNat 64 (n % 2 ^ 21 / 2)) = n % 2 ^ 21 / 2 := by
      rw [low20_eq_mod, BitVec.toNat_ofNat]
      omega
    rw [ofNat_xor_topBit (by omega), lo20, ← hp]
    congr 1
    omega

end Sys2Proof.Machine
end

section
/-! SUPPORT. The pseudo-instructions (30_encoding.md R82, 46_assembler_contract.md R187). -/

namespace Sys2Proof.Machine

set_option Elab.async false in
theorem wellFormed_scfg (src : Source) (var : Variant) : (Instr.scfg src.bank var).wellFormed = true := by
  cases src <;> rfl

/-- An issued command is performed. -/
theorem step_issue {s : State} {i : Instr} {ports : Ports} {rest : List HostEvent} (hp : s.phase = .idle)
    (hh : s.host = issue i ports :: rest) (legal : i.wellFormed = true) :
    step s = exec i { s with host := rest, ports := ports } := step_command hp hh (decode_encode legal)

/-- A NEXT issued to a seeded source is a draw of it (R165). -/
theorem step_issue_next_seeded {src : Source} {s : State} {ports : Ports} {rest : List HostEvent} (hp : s.phase = .idle)
    (hh : s.host = issue (nextInstr src.bank) ports :: rest) (seeded : s.arch.isSeeded src.bank = true) :
    step s = .next ({ s with host := rest, ports := ports }.completed (draw32 src s.arch).1
      (zext64 (draw32 src s.arch).2)) := by
  rw [step_issue hp hh (wellFormed_nextInstr src.bank), draw32_fst, draw32_snd]
  exact exec_nextInstr_seeded seeded

/-- A NEXT issued to an empty bank fails. -/
theorem step_issue_next_empty {b : Bank} {s : State} {ports : Ports} {rest : List HostEvent} (hp : s.phase = .idle)
    (hh : s.host = issue (nextInstr b) ports :: rest) (empty : s.arch.isSeeded b = false) :
    step s = .next ({ s with host := rest, ports := ports }.failed .notSeeded) := by
  rw [step_issue hp hh (wellFormed_nextInstr b), exec_nextInstr]
  exact nextBank_empty empty

/-- R187: the earlier output is the high half. -/
theorem pair64_zext64_high (x y : W32) : (pair64 (zext64 x) (zext64 y)).extractLsb' 32 32 = x := by
  rw [pair64, low32_zext64, low32_zext64, BitVec.extractLsb'_append_eq_of_le (by decide)]
  exact BitVec.extractLsb'_eq_self

theorem pair64_zext64_low (x y : W32) : (pair64 (zext64 x) (zext64 y)).extractLsb' 0 32 = y := by
  rw [pair64, low32_zext64, low32_zext64]
  exact BitVec.extractLsb'_append_eq_right

/-- Settles O59: the commands of an expansion are performed one after the other; of a seeded source each NEXT is a draw,
of an empty one each fails, leaving it empty. -/
theorem pseudoInstructionsRunAsTheirExpansions : Obligations.PseudoInstructionsRunAsTheirExpansions := by
  unfold Obligations.PseudoInstructionsRunAsTheirExpansions
  intro s src unread unread' hp
  refine ⟨fun hh seeded => ?pair, fun hh empty => ?noPair, fun range hh => ?modulo, fun range hh => ?oneill⟩
  case pair =>
    have first := step_issue_next_seeded hp hh seeded
    have second := step_issue_next_seeded (rest := [])
      (s := State.completed (draw32 src s.arch).1 (zext64 (draw32 src s.arch).2)
        { s with host := [issue (nextInstr src.bank) unread'], ports := unread }) rfl rfl ((draw32_isSeeded src s.arch src.bank).trans seeded)
    exact ⟨_, _, _, _, _, first, rfl, second, rfl, rfl, rfl, if_pos ⟨rfl, rfl⟩, pair64_zext64_high _ _,
      pair64_zext64_low _ _⟩
  case noPair =>
    have first := step_issue_next_empty hp hh empty
    have second := step_issue_next_empty (rest := [])
      (s := State.failed .notSeeded { s with host := [issue (nextInstr src.bank) unread'], ports := unread }) rfl rfl empty
    exact ⟨_, _, _, _, first, rfl, second, rfl, rfl, rfl, if_neg nofun⟩
  case modulo => exact step_issue hp hh (wellFormed_scfg src .modulo)
  case oneill => exact step_issue hp hh (wellFormed_scfg src .oneill)

end Sys2Proof.Machine
end
